-- ==== Sys2Proof/Word.lean ====
section
/-! DEFINITION. The word types of the AEVM-FDU (00_scope R6, R7). -/

namespace Sys2Proof

/-- A register value, a data-memory word, an immediate, an ALU operand, the PC: 32 bits (R6, R7). -/
abbrev Word := BitVec 32

/-- An instruction word: 64 bits (R6, R55). -/
abbrev InsnWord := BitVec 64

/-- A byte of a program image outside the block (R47). -/
abbrev Byte := BitVec 8

end Sys2Proof
end

