-- ==== Sys2Proof/Config.lean ====
section
/-! DEFINITION. The implementation parameters of rule R6. All but `IMEM_DEPTH` are fixed by the spec. -/

namespace Sys2Proof.Config

/-- `DMEM_WORDS`: the data memory has 256 words (R6, R40). -/
abbrev dmemWords : Nat := 256

/-- `DUMP_MEM`: the dump shows data-memory words 0 to 9 (R6, R30). -/
abbrev dumpMem : Nat := 10

/-- `IMEM_DEPTH - 1`. The spec leaves `IMEM_DEPTH` OPEN with 1 ≤ IMEM_DEPTH ≤ 2^31-1 (R6, D16, I11);
no value of it can be proved (log 4, DESIGN CHOICE, safe). -/
opaque imemDepthLessOne : Fin 2147483647

/-- `IMEM_DEPTH`, the program-store capacity in words (R6, R23). -/
def imemDepth : Nat := imemDepthLessOne.val + 1

end Sys2Proof.Config
end

