-- ==== Sys2Proof/Syntax.lean ====
section
/-! DEFINITION. The instructions: registers, opcodes, formats and one constructor per row of the opcode
table, and the names of the errors and terminations (R12). -/

namespace Sys2Proof

/-- The four general registers, "a fixed, closed set" (R13). -/
inductive Reg where
  | A | B | C | D
deriving DecidableEq, Repr

/-- The twelve opcodes, in the order of the opcode map (R60). -/
inductive Opcode where
  | load | loadm | store | add | sub | mul | div | cmp | jmp | je | jne | halt
deriving DecidableEq, Repr

/-- The four instruction formats (R57). -/
inductive Format where
  | ri | rr | i | n
deriving DecidableEq, Repr

/-- A decoded instruction (R85): the opcode with the operands its format uses and nothing else. Registers
are names, not numbers, so an instruction with an unknown register does not exist (log 11, DESIGN CHOICE, safe). -/
inductive Instr where
  /-- `LOAD Rd imm` (R98) -/
  | load (rd : Reg) (imm : Word)
  /-- `LOADM Rd addr` (R99) -/
  | loadm (rd : Reg) (addr : Word)
  /-- `STORE Rs addr` (R100) -/
  | store (rs : Reg) (addr : Word)
  /-- `ADD Rd Rs` (R102) -/
  | add (rd rs : Reg)
  /-- `SUB Rd Rs` (R103) -/
  | sub (rd rs : Reg)
  /-- `MUL Rd Rs` (R104) -/
  | mul (rd rs : Reg)
  /-- `DIV Rd Rs` (R105) -/
  | div (rd rs : Reg)
  /-- `CMP Ra Rb` (R109) -/
  | cmp (ra rb : Reg)
  /-- `JMP target` (R110) -/
  | jmp (target : Word)
  /-- `JE target` (R111) -/
  | je (target : Word)
  /-- `JNE target` (R112) -/
  | jne (target : Word)
  /-- `HALT` (R113) -/
  | halt
deriving DecidableEq, Repr

/-- What is wrong with a word that is no instruction (R63, R84). -/
inductive DecodeError where
  | unknownOpcode | malformedOperands | unknownRegister
deriving DecidableEq, Repr

/-- The six error kinds of the source (R12, R115). -/
inductive ErrorKind where
  | unknownOpcode | malformedOperands | unknownRegister
  | invalidMemoryAddress | divisionByZero | invalidJumpTarget
deriving DecidableEq, Repr

/-- Why a run stopped: `NormalHalt`, `EndOfProgram` or `RuntimeError(kind)` (R12, R32, R115). -/
inductive Cause where
  | normalHalt | endOfProgram | runtimeError (kind : ErrorKind)
deriving DecidableEq, Repr

end Sys2Proof
end

