-- ==== Sys2Proof/Decode.lean ====
section
/-! DEFINITION. The binary encoding: fields, opcode and register numbers, fixed-bit masks, the decoder of
rule R84, the encoder of rule R74, the byte image of rule R47, and the host's table-word decoder. -/

namespace Sys2Proof

/-! ### Fields of the word (R56) -/

/-- `op`, bits 63:56. -/
def fieldOp (w : InsnWord) : BitVec 8 := w.extractLsb' 56 8

/-- `ra`, bits 55:53. -/
def fieldRa (w : InsnWord) : BitVec 3 := w.extractLsb' 53 3

/-- `rb`, bits 52:50. -/
def fieldRb (w : InsnWord) : BitVec 3 := w.extractLsb' 50 3

/-- `rsv`, bits 49:32. -/
def fieldRsv (w : InsnWord) : BitVec 18 := w.extractLsb' 32 18

/-- `imm`, bits 31:0. -/
def fieldImm (w : InsnWord) : Word := w.extractLsb' 0 32

/-- A word from its five fields, most significant first (R56, R7). -/
def packWord (op : BitVec 8) (ra rb : BitVec 3) (rsv : BitVec 18) (imm : Word) : InsnWord :=
  op ++ ra ++ rb ++ rsv ++ imm

/-! ### Numbers -/

/-- The opcode of an instruction. -/
def Instr.opcode : Instr → Opcode
  | .load _ _ => .load
  | .loadm _ _ => .loadm
  | .store _ _ => .store
  | .add _ _ => .add
  | .sub _ _ => .sub
  | .mul _ _ => .mul
  | .div _ _ => .div
  | .cmp _ _ => .cmp
  | .jmp _ => .jmp
  | .je _ => .je
  | .jne _ => .jne
  | .halt => .halt

/-- The opcode numbers (R60). -/
def Opcode.code : Opcode → BitVec 8
  | .load => 0x01
  | .loadm => 0x02
  | .store => 0x03
  | .add => 0x04
  | .sub => 0x05
  | .mul => 0x06
  | .div => 0x07
  | .cmp => 0x08
  | .jmp => 0x09
  | .je => 0x0A
  | .jne => 0x0B
  | .halt => 0x0C

/-- The format of each opcode (R60). -/
def Opcode.format : Opcode → Format
  | .load | .loadm | .store => .ri
  | .add | .sub | .mul | .div | .cmp => .rr
  | .jmp | .je | .jne => .i
  | .halt => .n

/-- All opcodes, in table order. -/
def allOpcodes : List Opcode :=
  [.load, .loadm, .store, .add, .sub, .mul, .div, .cmp, .jmp, .je, .jne, .halt]

/-- The opcode with a given number; `none` for 0x00 and 0x0D to 0xFF (R60, R61). -/
def Opcode.ofCode (b : BitVec 8) : Option Opcode := allOpcodes.find? fun o => o.code == b

/-- The register numbers: A = 0, B = 1, C = 2, D = 3 (R13, R59). -/
def Reg.number : Reg → BitVec 3
  | .A => 0
  | .B => 1
  | .C => 2
  | .D => 3

/-- The register a used field names; `none` for 4 to 7 (R59). -/
def Reg.ofNumber (b : BitVec 3) : Option Reg := [Reg.A, .B, .C, .D].find? fun r => r.number == b

/-- The fixed-bit mask of a format (R57). -/
def Format.mask : Format → InsnWord
  | .ri => 0xFF1FFFFF00000000
  | .rr => 0xFF03FFFFFFFFFFFF
  | .i => 0xFFFFFFFF00000000
  | .n => 0xFFFFFFFFFFFFFFFF

/-- The value the masked word must have: `zext_64(op) << 56` (R57, R84). -/
def Opcode.pattern (o : Opcode) : InsnWord := o.code.setWidth 64 <<< 56

/-! ### Decoding -/

/-- What a word decodes to (R63, R64). -/
inductive Decoded where
  | insn (i : Instr)
  | error (e : DecodeError)
deriving DecidableEq, Repr

/-- The register check and the operands of format RI. -/
def decodeRI (k : Reg → Word → Instr) (w : InsnWord) : Decoded :=
  match Reg.ofNumber (fieldRa w) with
  | none => .error .unknownRegister
  | some r => .insn (k r (fieldImm w))

/-- The register checks, `ra` first, and the operands of format RR. -/
def decodeRR (k : Reg → Reg → Instr) (w : InsnWord) : Decoded :=
  match Reg.ofNumber (fieldRa w), Reg.ofNumber (fieldRb w) with
  | some a, some b => .insn (k a b)
  | _, _ => .error .unknownRegister

/-- The operands of format I. -/
def decodeI (k : Word → Instr) (w : InsnWord) : Decoded := .insn (k (fieldImm w))

/-- The operands of a word whose opcode is legal and whose must-be-zero fields are zero (R84, R85). -/
def decodeOperands (o : Opcode) (w : InsnWord) : Decoded :=
  match o with
  | .load => decodeRI .load w
  | .loadm => decodeRI .loadm w
  | .store => decodeRI .store w
  | .add => decodeRR .add w
  | .sub => decodeRR .sub w
  | .mul => decodeRR .mul w
  | .div => decodeRR .div w
  | .cmp => decodeRR .cmp w
  | .jmp => decodeI .jmp w
  | .je => decodeI .je w
  | .jne => decodeI .jne w
  | .halt => .insn .halt

/-- `decode(w)`: the checks of rule R84 in their order; total on every word (R64). -/
def decode (w : InsnWord) : Decoded :=
  match Opcode.ofCode (fieldOp w) with
  | none => .error .unknownOpcode
  | some o =>
    if w &&& o.format.mask = o.pattern then decodeOperands o w else .error .malformedOperands

/-! ### Encoding -/

/-- A word of format RI (R57, R74). -/
def encodeRI (o : Opcode) (r : Reg) (imm : Word) : InsnWord := packWord o.code r.number 0 0 imm

/-- A word of format RR. -/
def encodeRR (o : Opcode) (a b : Reg) : InsnWord := packWord o.code a.number b.number 0 0

/-- A word of format I. -/
def encodeI (o : Opcode) (imm : Word) : InsnWord := packWord o.code 0 0 0 imm

/-- The word of an instruction (R57, R60, first row of R74), from which an error's word is rebuilt (log 8, DEDUCED, safe). -/
def encode : Instr → InsnWord
  | .load rd imm => encodeRI .load rd imm
  | .loadm rd addr => encodeRI .loadm rd addr
  | .store rs addr => encodeRI .store rs addr
  | .add rd rs => encodeRR .add rd rs
  | .sub rd rs => encodeRR .sub rd rs
  | .mul rd rs => encodeRR .mul rd rs
  | .div rd rs => encodeRR .div rd rs
  | .cmp ra rb => encodeRR .cmp ra rb
  | .jmp target => encodeI .jmp target
  | .je target => encodeI .je target
  | .jne target => encodeI .jne target
  | .halt => packWord Opcode.halt.code 0 0 0 0

/-! ### The byte image outside the block (R47): little-endian per 64-bit word -/

/-- Byte `k` of a word: byte 0 is bits 7:0. -/
def byteOf (w : InsnWord) (k : Nat) : Byte := w.extractLsb' (8 * k) 8

/-- The eight bytes of a word, byte 0 first. -/
def bytesOfWord (w : InsnWord) : List Byte := (List.range 8).map (byteOf w)

/-- The byte image of a program. -/
def imageOfWords (ws : List InsnWord) : List Byte := ws.flatMap bytesOfWord

/-- The word whose eight bytes are given, byte 0 first. -/
def wordOfBytes (b0 b1 b2 b3 b4 b5 b6 b7 : Byte) : InsnWord :=
  b7 ++ b6 ++ b5 ++ b4 ++ b3 ++ b2 ++ b1 ++ b0

/-- The words of an image; `none` where the image does not end on a whole word (log 16, DESIGN CHOICE, safe). -/
def wordsOfImage : List Byte → Option (List InsnWord)
  | [] => some []
  | b0 :: b1 :: b2 :: b3 :: b4 :: b5 :: b6 :: b7 :: rest =>
    (wordsOfImage rest).map (wordOfBytes b0 b1 b2 b3 b4 b5 b6 b7 :: ·)
  | _ => none

/-! ### The host's question about the opcode table -/

/-- The instruction the decoder reads from the word whose low `nbits` bits are `w`'s (one word an
instruction, R55); `none` where it refuses it. -/
def decodeTableWord (nbits w : Nat) : Option Instr :=
  if w % 2 ^ nbits < 2 ^ 64 then
    match decode (BitVec.ofNat 64 (w % 2 ^ nbits)) with
    | .insn i => some i
    | .error _ => none
  else none

end Sys2Proof
end

