-- ==== Sys2Proof/Machine/State.lean ====
section
/-! DEFINITION. The state of the AEVM-FDU (10_state R13-R24, R29), its reset value (70_reset R133), and the
two closed types of reasons for which the model itself stops. Every error of the spec is a next state
with STATUS written (R119), so none of them is a `Fault` here. -/

namespace Sys2Proof.Machine

/-- The data memory (R24, R40): cells (word address, 32-bit word), addresses strictly rising and below 256,
no cell holding 0, which is what an unlisted address reads as (R133). The spec's smallest addressable
unit is the 32-bit word; it has no bytes (R40, R47; log 1, DESIGN CHOICE, safe). -/
abbrev Memory := List (Nat × Word)

/-- The program store (R23): cells (index, 64-bit word) for the words the host has loaded, indices strictly
rising. An unlisted index has no value (log 2, DESIGN CHOICE, safe). -/
abbrev ProgramStore := List (Nat × InsnWord)

/-- The whole state. FLAGS is a view of `eq` (R20), the output ports are views of the rest (R29-R32), and the
step's internal latches are not state (R26). -/
structure State where
  /-- register A (R13) -/
  a : Word
  /-- register B (R13) -/
  b : Word
  /-- register C (R13) -/
  c : Word
  /-- register D (R13) -/
  d : Word
  /-- the program counter, an unsigned word index (R16) -/
  pc : Word
  /-- the EQ flag (R19) -/
  eq : Bool
  /-- the data memory (R24) -/
  dmem : Memory
  /-- the program store (R23) -/
  imem : ProgramStore
  /-- N = `PROG_LEN`, sampled at reset release (R23) -/
  progLen : Word
  /-- STATUS: HALTED in bit 0, CAUSE in bits 7:4, the rest reserved; kept whole (R21; log 13, DEDUCED, safe) -/
  status : BitVec 32
  /-- ERR_INSN (R22) -/
  errInsn : InsnWord
  /-- `trace_valid`: the strobe of the step that led here (R31, R90; log 6, DEDUCED, unsafe) -/
  traceValid : Bool
  /-- the level of the input `rst` (R29, R131; log 7, DESIGN CHOICE, unsafe) -/
  rst : Bool
  /-- the value on the input `prog_len` (R29; log 7, DESIGN CHOICE, unsafe) -/
  progLenPin : Word
deriving DecidableEq, Repr

/-- The reset state with nothing loaded (R133, R134): every register, EQ, DMEM, STATUS, ERR_INSN and the
strobe 0, `rst` released (log 7, DESIGN CHOICE, unsafe). The program store and N are the host's (R133, R135): here no word is loaded
and N is 0 (log 3, DESIGN CHOICE, unsafe). -/
def State.reset : State where
  a := 0
  b := 0
  c := 0
  d := 0
  pc := 0
  eq := false
  dmem := []
  imem := []
  progLen := 0
  status := 0
  errInsn := 0
  traceValid := false
  rst := false
  progLenPin := 0

/-- Where the machine stops although the spec describes the access: nothing but the first case exists. -/
inductive Fault where
  /-- Raised by the fetch in `step` for an index below N whose IMEM word the host never loaded. The host
  broke R135 and no rule gives that word a value. SAFE: the model stops where the hardware would go on
  with some word (log 2, DESIGN CHOICE, safe). -/
  | imemWordNotLoaded
deriving DecidableEq, Repr

/-- What the model refuses. -/
inductive Refusal where
  /-- Raised by `exec`'s arm of an instruction that has no meaning yet; no arm raises it now. SAFE. -/
  | notModelled (mnemonic : String)
  /-- Raised by the host's release of reset when `prog_len` exceeds `IMEM_DEPTH` (I7). SAFE: the spec gives
  such a run no meaning (log 9, DESIGN CHOICE, safe). -/
  | progLenBeyondStore
  /-- Raised by the host's write of an IMEM word at an index at or beyond `IMEM_DEPTH`, which is not
  addressable (R23, R46). SAFE (log 9, DESIGN CHOICE, safe). -/
  | imemIndexBeyondStore
  /-- Raised by the host's write of IMEM or `prog_len` while `rst` is 0 (R138, I7). SAFE: the spec says
  nothing of such a run (log 9, DESIGN CHOICE, safe). -/
  | hostWriteDuringRun
deriving DecidableEq, Repr

end Sys2Proof.Machine
end

