-- ==== Sys2Proof/Machine/Flags.lean ====
section
/-! DEFINITION. The flag and the status registers: the comparison result (R109), the FLAGS view (R20), the
cause codes (R115) and the STATUS layout (R21). -/

namespace Sys2Proof.Machine

/-- What CMP writes to EQ: all 32 bits equal (R109). -/
def eqResult (x y : Word) : Bool := x == y

/-- FLAGS: bit 0 is EQ, bits 31:1 read 0 (R20). -/
def State.flags (s : State) : BitVec 32 := if s.eq then 1 else 0

/-- The code of an error kind (R115). -/
def errorCode : ErrorKind → BitVec 4
  | .unknownOpcode => 3
  | .malformedOperands => 4
  | .unknownRegister => 5
  | .invalidMemoryAddress => 6
  | .divisionByZero => 7
  | .invalidJumpTarget => 8

/-- The code of a termination (R115). -/
def causeCode : Cause → BitVec 4
  | .normalHalt => 1
  | .endOfProgram => 2
  | .runtimeError k => errorCode k

/-- The termination a code stands for; `none` for 0 and for 9 to 15, which are never produced (R115). -/
def causeOfCode (b : BitVec 4) : Option Cause :=
  [Cause.normalHalt, .endOfProgram, .runtimeError .unknownOpcode, .runtimeError .malformedOperands,
    .runtimeError .unknownRegister, .runtimeError .invalidMemoryAddress, .runtimeError .divisionByZero,
    .runtimeError .invalidJumpTarget].find? fun c => causeCode c == b

/-- The error kind a decode error is (R63, R115). -/
def decodeErrorKind : DecodeError → ErrorKind
  | .unknownOpcode => .unknownOpcode
  | .malformedOperands => .malformedOperands
  | .unknownRegister => .unknownRegister

/-- STATUS once halted: HALTED = 1, CAUSE = the code, reserved bits 0 (R21, R119). -/
def haltedStatus (c : Cause) : BitVec 32 := (0 : BitVec 24) ++ causeCode c ++ (0 : BitVec 3) ++ (1 : BitVec 1)

/-- STATUS.HALTED, bit 0: the run state (R21, R25). -/
def State.halted (s : State) : Bool := s.status.getLsbD 0

/-- STATUS.CAUSE, bits 7:4 (R21). -/
def State.cause (s : State) : BitVec 4 := s.status.extractLsb' 4 4

end Sys2Proof.Machine
end

