-- ==== Sys2Proof/Machine/Operands.lean ====
section
/-! DEFINITION. Operand forms: the register file, the signed readings of a word, the arithmetic the ALU uses,
the data-memory address check (R41) and the jump-target check (R114). -/

namespace Sys2Proof.Machine

/-! ### Registers (R13-R15) -/

/-- `x[r]`: the value of a register (R10, R15). No register is hardwired (R13). -/
def State.reg (s : State) : Reg → Word
  | .A => s.a
  | .B => s.b
  | .C => s.c
  | .D => s.d

/-- `x[r] <- v` (R10, R14). -/
def State.setReg (s : State) (r : Reg) (v : Word) : State :=
  match r with
  | .A => { s with a := v }
  | .B => { s with b := v }
  | .C => { s with c := v }
  | .D => { s with d := v }

/-! ### Integers (R8, R9) -/

/-- `sint(v)`: the signed integer a 32-bit value stands for (R8; two's complement: log 12, PRESUMED, unsafe). -/
abbrev sint (v : Word) : Int := v.toInt

/-- `uint(v)`: the unsigned reading (R8). -/
abbrev uint (v : Word) : Nat := v.toNat

/-- `wrap32(n)`: the 32-bit value congruent to `n` modulo 2^32 (R8). -/
def wrap32 (n : Int) : Word := BitVec.ofInt 32 n

/-- `floor_div(a, b)`: the quotient rounded toward negative infinity (R9). -/
def floorDiv (a b : Int) : Int := Int.fdiv a b

/-! ### Immediate operands (R58) -/

/-- A data-memory address: 0 to 255 (R40). -/
abbrev DmemAddr := Fin Config.dmemWords

/-- The address check: the address `sint(imm)` when it lies in 0 to 255, else `none` (R41). -/
def dmemAddr? (imm : Word) : Option DmemAddr :=
  if h : 0 ≤ sint imm ∧ sint imm ≤ 255 then
    some ⟨(sint imm).toNat, (Int.toNat_lt h.1).mpr (Int.lt_add_one_of_le h.2)⟩
  else none

/-- The target check of a taken jump: `uint(imm)` as the next PC when `sint(imm) ≥ 0`, else `none` (R114). -/
def jumpTarget? (imm : Word) : Option Word := if sint imm < 0 then none else some imm

end Sys2Proof.Machine
end

