-- ==== Sys2Proof/Machine/Ops.lean ====
section
/-! DEFINITION. The named operations: sparse cells, data memory (R42, R43), program store (R45), commit (R83, R88),
halt entry (R119), reset (R131-R133), and the fetch of a step (R81). -/

namespace Sys2Proof.Machine

/-! ### Cells: a list of (key, value) with strictly rising keys -/

/-- The value at a key, if the key is listed. -/
def cellAt {α : Type} (k : Nat) : List (Nat × α) → Option α
  | [] => none
  | (j, v) :: rest => if j = k then some v else cellAt k rest

/-- The cells with the value at a key set, the key inserted in its place. -/
def putCell {α : Type} (k : Nat) (v : α) : List (Nat × α) → List (Nat × α)
  | [] => [(k, v)]
  | (j, w) :: rest =>
    if k < j then (k, v) :: (j, w) :: rest
    else if k = j then (k, v) :: rest
    else (j, w) :: putCell k v rest

/-- The cells without a key. -/
def dropCell {α : Type} (k : Nat) (m : List (Nat × α)) : List (Nat × α) := m.filter fun c => c.1 != k

/-- The keys are strictly rising, each above `lo`'s predecessor. -/
def risingFrom {α : Type} (lo : Nat) : List (Nat × α) → Bool
  | [] => true
  | (j, _) :: rest => lo ≤ j && risingFrom (j + 1) rest

/-- The keys are strictly rising. -/
def rising {α : Type} (m : List (Nat × α)) : Bool := risingFrom 0 m

/-! ### Data memory (R40-R44) -/

/-- What an unlisted data-memory word reads as: 0, its reset contents (R40, R133). -/
def unlistedWord : Word := 0

/-- The canonical form: addresses strictly rising, all below 256, no word equal to what an unlisted one reads
as. -/
def Memory.wf (m : Memory) : Bool :=
  rising m && m.all fun c => decide (c.1 < Config.dmemWords) && c.2 != unlistedWord

/-- `DMEM[a]`. -/
def Memory.read (m : Memory) (a : DmemAddr) : Word := (cellAt a.val m).getD unlistedWord

/-- `DMEM[a] <- v`, keeping the canonical form. -/
def Memory.write (m : Memory) (a : DmemAddr) (v : Word) : Memory :=
  if v = unlistedWord then dropCell a.val m else putCell a.val v m

/-- `MemRead(a, 1)` (R42). -/
def State.memRead (s : State) (a : DmemAddr) : Word := s.dmem.read a

/-- `MemWrite(a, 1, v)` (R43). -/
def State.memWrite (s : State) (a : DmemAddr) (v : Word) : State := { s with dmem := s.dmem.write a v }

/-! ### Program store (R23, R45) -/

/-- `IFetch(i)`: the word the host loaded at index `i`; `none` where it loaded none (R45; log 2, DESIGN CHOICE, safe). -/
def State.ifetch (s : State) (i : Nat) : Option InsnWord := cellAt i s.imem

/-- The outcomes of the fetch of a step (R81). -/
inductive Fetched where
  /-- `pc ≥ N`: IMEM is not read -/
  | endOfProgram
  /-- the word at index `pc` -/
  | word (w : InsnWord)
  /-- `pc < N`, but the host loaded no word there (log 2, DESIGN CHOICE, safe) -/
  | notLoaded
deriving DecidableEq, Repr

/-- The fetch: `pc` is compared with N as unsigned values, and only below N is IMEM read (R81). -/
def fetch (s : State) : Fetched :=
  if uint s.progLen ≤ uint s.pc then .endOfProgram
  else match s.ifetch (uint s.pc) with
    | some w => .word w
    | none => .notLoaded

/-- The index the next step can fetch from: the PC, or 0 where the PC lies beyond any program store, which no
run reaches (R18; log 15, DESIGN CHOICE, safe). -/
def State.fetchIndex (s : State) : Word := if uint s.pc < 2 ^ 31 - 1 then s.pc else 0

/-! ### Commit (R83, R88, R90) -/

/-- The PC of the next instruction in order: `pc + 1` (R88). -/
def State.pcNext (s : State) : Word := s.pc + 1

/-- The commit of a step that continues: the next PC is written and the trace strobe raised (R88, R90). -/
def State.continueAt (s : State) (nextPc : Word) : State := { s with pc := nextPc, traceValid := true }

/-- `EQ <- v` (R10, R109). -/
def State.setEq (s : State) (v : Bool) : State := { s with eq := v }

/-! ### Halt entry (R119) and the one way out, reset (R123, R131) -/

/-- Entry into the Halted state: STATUS takes HALTED = 1 and the cause, ERR_INSN the given word, and nothing
else is written; a terminating step raises no strobe (R119, R90). -/
def State.haltEntry (s : State) (c : Cause) (err : InsnWord) : State :=
  { s with status := haltedStatus c, errInsn := err, traceValid := false }

/-- `raise K(word)`: halt entry with an error; ERR_INSN receives the offending word (R10, R95, R119). -/
def State.raise (s : State) (k : ErrorKind) (w : InsnWord) : State := s.haltEntry (.runtimeError k) w

/-- `halt NormalHalt`: halt entry; ERR_INSN is not written (R95, R113, R119). -/
def State.stopNormal (s : State) : State := s.haltEntry .normalHalt s.errInsn

/-- `halt EndOfProgram`: halt entry; ERR_INSN is not written (R82, R95, R119). -/
def State.stopEndOfProgram (s : State) : State := s.haltEntry .endOfProgram s.errInsn

/-- A rising clock edge with `rst` = 1: every piece of state takes its reset value; the program store, N and
the input pins are not the reset's to change (R131, R133). -/
def State.resetEdge (s : State) : State :=
  { State.reset with imem := s.imem, progLen := s.progLen, rst := s.rst, progLenPin := s.progLenPin }

/-- A decode error ends the step as that error, with the word fetched (R84, R119). -/
def raiseDecodeError (e : DecodeError) (w : InsnWord) (s : State) : Host.Outcome State Fault Refusal :=
  .next (s.raise (decodeErrorKind e) w)

/-- End of program ends the step normally (R82). -/
def finishProgram (s : State) : Host.Outcome State Fault Refusal := .next s.stopEndOfProgram

end Sys2Proof.Machine
end

