-- ==== Sys2Proof/Machine/Arithmetic.lean ====
section
/-! DEFINITION. ADD, SUB, MUL and DIV (42_arithmetic R101-R108). -/

namespace Sys2Proof.Machine

/-- What the ALU writes back: the exact result of the operation on the signed operands, wrapped to 32 bits; no
flag is written (R101, R108). -/
def State.aluWrite (s : State) (op : Int → Int → Int) (rd rs : Reg) : State :=
  (s.setReg rd (wrap32 (op (sint (s.reg rd)) (sint (s.reg rs))))).continueAt s.pcNext

/-- ADD: `x[ra] <- wrap32(sint(x[ra]) + sint(x[rb]))`; PC + 1 (R102). -/
def execAdd (rd rs : Reg) (s : State) : Host.Outcome State Fault Refusal :=
  .next (s.aluWrite (· + ·) rd rs)

/-- SUB: `x[ra] <- wrap32(sint(x[ra]) - sint(x[rb]))`; PC + 1 (R103). -/
def execSub (rd rs : Reg) (s : State) : Host.Outcome State Fault Refusal :=
  .next (s.aluWrite (· - ·) rd rs)

/-- MUL: `x[ra] <- wrap32(sint(x[ra]) * sint(x[rb]))`; PC + 1 (R104). -/
def execMul (rd rs : Reg) (s : State) : Host.Outcome State Fault Refusal :=
  .next (s.aluWrite (· * ·) rd rs)

/-- DIV: DivisionByZero when the divisor is 0, else `x[ra] <- wrap32(floor_div(a, b))`; PC + 1 (R105). -/
def execDiv (rd rs : Reg) (s : State) : Host.Outcome State Fault Refusal :=
  if sint (s.reg rs) = 0 then .next (s.raise .divisionByZero (encode (.div rd rs)))
  else .next (s.aluWrite floorDiv rd rs)

end Sys2Proof.Machine
end

