-- ==== Sys2Proof/Machine/Compare.lean ====
section
/-! DEFINITION. CMP (43_compare R109). -/

namespace Sys2Proof.Machine

/-- CMP: `EQ <- (x[ra] == x[rb])`; PC + 1 (R109). -/
def execCmp (ra rb : Reg) (s : State) : Host.Outcome State Fault Refusal :=
  .next ((s.setEq (eqResult (s.reg ra) (s.reg rb))).continueAt s.pcNext)

end Sys2Proof.Machine
end

