-- ==== Sys2Proof/Machine/ControlTransfer.lean ====
section
/-! DEFINITION. JMP, JE, JNE and HALT (44_control_transfer R110-R114). -/

namespace Sys2Proof.Machine

/-- A jump that is taken: the target check, then `pc <- uint(imm)`; `w` is the instruction's own word (R114). -/
def State.takeJump (s : State) (target : Word) (w : InsnWord) : State :=
  match jumpTarget? target with
  | none => s.raise .invalidJumpTarget w
  | some t => s.continueAt t

/-- JMP (R110). -/
def execJmp (target : Word) (s : State) : Host.Outcome State Fault Refusal :=
  .next (s.takeJump target (encode (.jmp target)))

/-- JE: taken when EQ = 1, else PC + 1 with the target unchecked (R111, R114). -/
def execJe (target : Word) (s : State) : Host.Outcome State Fault Refusal :=
  .next (if s.eq then s.takeJump target (encode (.je target)) else s.continueAt s.pcNext)

/-- JNE: taken when EQ = 0, else PC + 1 with the target unchecked (R112, R114). -/
def execJne (target : Word) (s : State) : Host.Outcome State Fault Refusal :=
  .next (if s.eq then s.continueAt s.pcNext else s.takeJump target (encode (.jne target)))

/-- HALT: `halt NormalHalt` (R113). -/
def execHalt (s : State) : Host.Outcome State Fault Refusal := .next s.stopNormal

end Sys2Proof.Machine
end

