-- ==== Sys2Proof/Machine/DataTransfer.lean ====
section
/-! DEFINITION. LOAD, LOADM and STORE (41_data_transfer R98-R100). -/

namespace Sys2Proof.Machine

/-- LOAD: `x[ra] <- imm`; PC + 1 (R98). -/
def execLoad (rd : Reg) (imm : Word) (s : State) : Host.Outcome State Fault Refusal :=
  .next ((s.setReg rd imm).continueAt s.pcNext)

/-- LOADM: the address check, then `x[ra] <- MemRead(a, 1)`; PC + 1 (R99). -/
def execLoadm (rd : Reg) (addr : Word) (s : State) : Host.Outcome State Fault Refusal :=
  match dmemAddr? addr with
  | none => .next (s.raise .invalidMemoryAddress (encode (.loadm rd addr)))
  | some a => .next ((s.setReg rd (s.memRead a)).continueAt s.pcNext)

/-- STORE: the address check, then `MemWrite(a, 1, x[ra])`; PC + 1 (R100). -/
def execStore (rs : Reg) (addr : Word) (s : State) : Host.Outcome State Fault Refusal :=
  match dmemAddr? addr with
  | none => .next (s.raise .invalidMemoryAddress (encode (.store rs addr)))
  | some a => .next ((s.memWrite a (s.reg rs)).continueAt s.pcNext)

end Sys2Proof.Machine
end

