-- ==== Sys2Proof/Machine/Dispatch.lean ====
section
/-! DEFINITION. Dispatch: each decoded instruction goes to exactly one meaning, with no default arm (R86). -/

namespace Sys2Proof.Machine

def exec (i : Instr) (s : State) : Host.Outcome State Fault Refusal :=
  match i with
  | .load rd imm => Sys2Proof.Machine.execLoad rd imm s
  | .loadm rd addr => Sys2Proof.Machine.execLoadm rd addr s
  | .store rs addr => Sys2Proof.Machine.execStore rs addr s
  | .add rd rs => Sys2Proof.Machine.execAdd rd rs s
  | .sub rd rs => Sys2Proof.Machine.execSub rd rs s
  | .mul rd rs => Sys2Proof.Machine.execMul rd rs s
  | .div rd rs => Sys2Proof.Machine.execDiv rd rs s
  | .cmp ra rb => Sys2Proof.Machine.execCmp ra rb s
  | .jmp target => Sys2Proof.Machine.execJmp target s
  | .je target => Sys2Proof.Machine.execJe target s
  | .jne target => Sys2Proof.Machine.execJne target s
  | .halt => Sys2Proof.Machine.execHalt s

end Sys2Proof.Machine
end

