-- ==== Sys2Proof/Machine/Step.lean ====
section
/-! DEFINITION. One transition of the machine (40_fetch R80-R95), and the placing of a word where the next step
fetches it. -/

namespace Sys2Proof.Machine

/-- One transition. With `rst` = 1 it is a reset edge (R131). Halted, the unit does nothing and every value
holds (R92; log 5, DEDUCED, safe). Otherwise it is the step of R95: fetch, decode, execute, each of which may end it. -/
def step (s : State) : Host.Outcome State Fault Refusal :=
  if s.rst then .next s.resetEdge
  else if s.halted then .next s
  else
    match fetch s with
    | .endOfProgram => finishProgram s
    | .notLoaded => .fault .imemWordNotLoaded
    | .word w =>
      match decode w with
      | .error e => raiseDecodeError e w s
      | .insn i => exec i s

/-- The state with the instruction word `w` (its bits at and above `nbits` zero) loaded where the next step
fetches: `rst` released, Running, the word in IMEM at the PC, and N beyond the PC. It stands for the
host's loading of a program (R135; log 3, DESIGN CHOICE, unsafe). -/
def State.withFetchWord (s : State) (nbits w : Nat) : State :=
  { s with
    rst := false
    status := if s.halted then 0 else s.status
    pc := s.fetchIndex
    imem := putCell (uint s.fetchIndex) (BitVec.ofNat 64 (w % 2 ^ nbits)) s.imem
    progLen := if uint s.fetchIndex < uint s.progLen then s.progLen else s.fetchIndex + 1 }

end Sys2Proof.Machine
end

