-- ==== Sys2Proof/Machine/Text.lean ====
section
/-! DEFINITION. The text level (30_encoding R66-R73): tokens, mnemonics, register and integer tokens, and the
decoding of one line. A line is a list of characters. -/

namespace Sys2Proof.Machine

/-- A token: its characters. -/
abbrev Token := List Char

/-- The separators: ASCII space and horizontal tab (R67). -/
def isSeparator (c : Char) : Bool := c == ' ' || c == '\t'

/-- The token read so far, if it has a character. -/
def flushToken (cur : Token) : List Token := if cur = [] then [] else [cur]

/-- The tokens of the rest of a line, `cur` being the token read so far. -/
def tokensFrom (cur : Token) : List Char → List Token
  | [] => flushToken cur
  | c :: rest => if isSeparator c then flushToken cur ++ tokensFrom [] rest else tokensFrom (cur ++ [c]) rest

/-- A line splits into tokens at runs of separators (R67). -/
def tokens (line : List Char) : List Token := tokensFrom [] line

/-- The uppercase mnemonics (R68). -/
def mnemonic : Opcode → Token
  | .load => ['L', 'O', 'A', 'D']
  | .loadm => ['L', 'O', 'A', 'D', 'M']
  | .store => ['S', 'T', 'O', 'R', 'E']
  | .add => ['A', 'D', 'D']
  | .sub => ['S', 'U', 'B']
  | .mul => ['M', 'U', 'L']
  | .div => ['D', 'I', 'V']
  | .cmp => ['C', 'M', 'P']
  | .jmp => ['J', 'M', 'P']
  | .je => ['J', 'E']
  | .jne => ['J', 'N', 'E']
  | .halt => ['H', 'A', 'L', 'T']

/-- The opcode a token names, character for character (R68). -/
def opcodeOfToken (t : Token) : Option Opcode := allOpcodes.find? fun o => mnemonic o == t

/-- The register names (R70). -/
def regToken : Reg → Token
  | .A => ['A']
  | .B => ['B']
  | .C => ['C']
  | .D => ['D']

/-- The register a token names (R70). -/
def regOfToken (t : Token) : Option Reg := [Reg.A, .B, .C, .D].find? fun r => regToken r == t

/-- The digit a character is, `0` to `9`. -/
def digitValue (c : Char) : Option Nat :=
  if 48 ≤ c.toNat ∧ c.toNat ≤ 57 then some (c.toNat - 48) else none

/-- The number of a run of decimal digits read after the value `acc`. -/
def natOfDigits (acc : Nat) : List Char → Option Nat
  | [] => some acc
  | c :: rest =>
    match digitValue c with
    | some v => natOfDigits (10 * acc + v) rest
    | none => none

/-- One or more decimal digits. -/
def natOfToken (t : Token) : Option Nat := if t = [] then none else natOfDigits 0 t

/-- The integer a run of decimal digits denotes. -/
def intOfDigits (t : Token) : Option Int := (natOfToken t).map Int.ofNat

/-- An integer token: an optional sign and one or more decimal digits, of any size (R71). -/
def intOfToken (t : Token) : Option Int :=
  match t with
  | [] => none
  | c :: rest =>
    if c = '+' then intOfDigits rest
    else if c = '-' then (intOfDigits rest).map fun v => -v
    else intOfDigits (c :: rest)

/-- A decoded text line (R69): integers are unbounded at this level (R71). -/
inductive TextInsn where
  | load (rd : Reg) (imm : Int)
  | loadm (rd : Reg) (addr : Int)
  | store (rs : Reg) (addr : Int)
  | add (rd rs : Reg)
  | sub (rd rs : Reg)
  | mul (rd rs : Reg)
  | div (rd rs : Reg)
  | cmp (ra rb : Reg)
  | jmp (target : Int)
  | je (target : Int)
  | jne (target : Int)
  | halt
deriving DecidableEq, Repr

/-- Why a line fails to decode (R72), with what the assembler's error word keeps of it (R74): the opcode, and
for an unknown register the register operand before it, if it is the second. -/
inductive TextError where
  | unknownOpcode
  | malformedOperands (o : Opcode)
  | unknownRegister (o : Opcode) (before : Option Reg)
deriving DecidableEq, Repr

/-- The error kind of a text error. -/
def TextError.kind : TextError → DecodeError
  | .unknownOpcode => .unknownOpcode
  | .malformedOperands _ => .malformedOperands
  | .unknownRegister _ _ => .unknownRegister

/-- What a line decodes to. -/
inductive TextDecoded where
  | insn (i : TextInsn)
  | error (e : TextError)
deriving DecidableEq, Repr

/-- Operands `register integer`: the count, then left to right (R69, R72). -/
def textRI (o : Opcode) (k : Reg → Int → TextInsn) : List Token → TextDecoded
  | [r, v] =>
    match regOfToken r with
    | none => .error (.unknownRegister o none)
    | some r =>
      match intOfToken v with
      | none => .error (.malformedOperands o)
      | some n => .insn (k r n)
  | _ => .error (.malformedOperands o)

/-- Operands `register register` (R69, R72). -/
def textRR (o : Opcode) (k : Reg → Reg → TextInsn) : List Token → TextDecoded
  | [x, y] =>
    match regOfToken x with
    | none => .error (.unknownRegister o none)
    | some a =>
      match regOfToken y with
      | none => .error (.unknownRegister o (some a))
      | some b => .insn (k a b)
  | _ => .error (.malformedOperands o)

/-- One operand, an integer (R69, R72). -/
def textI (o : Opcode) (k : Int → TextInsn) : List Token → TextDecoded
  | [v] =>
    match intOfToken v with
    | none => .error (.malformedOperands o)
    | some n => .insn (k n)
  | _ => .error (.malformedOperands o)

/-- No operand (R69, R72). -/
def textN (o : Opcode) (i : TextInsn) : List Token → TextDecoded
  | [] => .insn i
  | _ => .error (.malformedOperands o)

/-- The operands of a line whose opcode token is legal, by the opcode's arity and operand types (R69). -/
def decodeTextOperands (o : Opcode) (ts : List Token) : TextDecoded :=
  match o with
  | .load => textRI .load .load ts
  | .loadm => textRI .loadm .loadm ts
  | .store => textRI .store .store ts
  | .add => textRR .add .add ts
  | .sub => textRR .sub .sub ts
  | .mul => textRR .mul .mul ts
  | .div => textRR .div .div ts
  | .cmp => textRR .cmp .cmp ts
  | .jmp => textI .jmp .jmp ts
  | .je => textI .je .je ts
  | .jne => textI .jne .jne ts
  | .halt => textN .halt .halt ts

/-- The decoding of a text line, in the order of rule R72. A line with no token, which the Loader never hands
over (R66), has no legal opcode token (log 10, DEDUCED, unsafe). -/
def decodeLine (line : List Char) : TextDecoded :=
  match tokens line with
  | [] => .error .unknownOpcode
  | t :: ts =>
    match opcodeOfToken t with
    | none => .error .unknownOpcode
    | some o => decodeTextOperands o ts

end Sys2Proof.Machine
end

