-- ==== Sys2Proof/Machine/Assembler.lean ====
section
/-! DEFINITION. The assembler from a text line to a word (30_encoding R74, R75) and the disassembler (R76). Both
are outside the hardware (R4, R74): they say that the text level and the binary level agree. -/

namespace Sys2Proof.Machine

/-- An address or target literal, saturated to the signed 32-bit range (R75). -/
def saturate32 (v : Int) : Word := wrap32 (max (-(2 ^ 31)) (min (2 ^ 31 - 1) v))

/-- The instruction of a decoded line: a LOAD value wraps, an address or target saturates (R75). -/
def TextInsn.toInstr : TextInsn → Instr
  | .load rd v => .load rd (wrap32 v)
  | .loadm rd v => .loadm rd (saturate32 v)
  | .store rs v => .store rs (saturate32 v)
  | .add rd rs => .add rd rs
  | .sub rd rs => .sub rd rs
  | .mul rd rs => .mul rd rs
  | .div rd rs => .div rd rs
  | .cmp ra rb => .cmp ra rb
  | .jmp v => .jmp (saturate32 v)
  | .je v => .je (saturate32 v)
  | .jne v => .jne (saturate32 v)
  | .halt => .halt

/-- The word emitted for a line that fails to decode (R74). -/
def errorWord : TextError → InsnWord
  | .unknownOpcode => 0
  | .malformedOperands o => packWord o.code 0 0 1 0
  | .unknownRegister o none => packWord o.code 7 0 0 0
  | .unknownRegister o (some r) => packWord o.code r.number 7 0 0

/-- The word of a text line (R74). -/
def assembleLine (line : List Char) : InsnWord :=
  match decodeLine line with
  | .insn i => encode i.toInstr
  | .error e => errorWord e

/-- The words of a program text: line `i` gives the word of index `i` (R66, R74). -/
def assembleProgram (lines : List (List Char)) : List InsnWord := lines.map assembleLine

/-- The decimal digits of a number below `10 ^ fuel`, most significant first, with no leading zero. -/
def decimalDigits : Nat → Nat → List Char
  | 0, _ => []
  | fuel + 1, n =>
    if n < 10 then [Char.ofNat (48 + n)] else decimalDigits fuel (n / 10) ++ [Char.ofNat (48 + n % 10)]

/-- `sint(imm)` in signed decimal, with a leading `-` when negative (R76). Ten digits hold every 32-bit value. -/
def printInt (imm : Word) : Token :=
  if sint imm < 0 then '-' :: decimalDigits 10 (sint imm).natAbs else decimalDigits 10 (sint imm).natAbs

/-- The uppercase hexadecimal digit of a number below 16. -/
def hexDigit (n : Nat) : Char := if n < 10 then Char.ofNat (48 + n) else Char.ofNat (55 + n)

/-- The last `k` hexadecimal digits of a number, most significant first. -/
def hexDigits : Nat → Nat → List Char
  | 0, _ => []
  | k + 1, n => hexDigits k (n / 16) ++ [hexDigit (n % 16)]

/-- Tokens joined by one space (R76). -/
def joinTokens : List Token → List Char
  | [] => []
  | [t] => t
  | t :: ts => t ++ ' ' :: joinTokens ts

/-- The operand tokens of an instruction, in the order of rule R69. -/
def operandTokens : Instr → List Token
  | .load r imm => [regToken r, printInt imm]
  | .loadm r imm => [regToken r, printInt imm]
  | .store r imm => [regToken r, printInt imm]
  | .add x y => [regToken x, regToken y]
  | .sub x y => [regToken x, regToken y]
  | .mul x y => [regToken x, regToken y]
  | .div x y => [regToken x, regToken y]
  | .cmp x y => [regToken x, regToken y]
  | .jmp imm => [printInt imm]
  | .je imm => [printInt imm]
  | .jne imm => [printInt imm]
  | .halt => []

/-- The printed form of an instruction (R76). -/
def printInstr (i : Instr) : List Char := joinTokens (mnemonic i.opcode :: operandTokens i)

/-- The printed form of a word: an instruction, or `.word 0x` and 16 uppercase hexadecimal digits (R76). -/
def disassemble (w : InsnWord) : List Char :=
  match decode w with
  | .insn i => printInstr i
  | .error _ => ['.', 'w', 'o', 'r', 'd', ' ', '0', 'x'] ++ hexDigits 16 w.toNat

end Sys2Proof.Machine
end

