-- ==== Sys2Proof/Machine/HostPort.lean ====
section
/-! DEFINITION. What the host may do to the machine between steps: drive `rst` and `prog_len` and load IMEM
(R29, R131-R138). A host that breaks its duties is refused (I3, I7; log 9, DESIGN CHOICE, safe). -/

namespace Sys2Proof.Machine

/-- The host raises `rst`; it may do so at any time (R131). -/
def State.assertReset (s : State) : State := { s with rst := true }

/-- The host writes an IMEM word: only under reset (R138) and only below `IMEM_DEPTH` (R23, R46). -/
def hostLoadWord (i : Nat) (w : InsnWord) (s : State) : Host.Outcome State Fault Refusal :=
  if s.rst = false then .refused .hostWriteDuringRun
  else if Config.imemDepth ≤ i then .refused .imemIndexBeyondStore
  else .next { s with imem := putCell i w s.imem }

/-- The host drives `prog_len`: only under reset (R138). -/
def hostDriveProgLen (n : Word) (s : State) : Host.Outcome State Fault Refusal :=
  if s.rst = false then .refused .hostWriteDuringRun
  else .next { s with progLenPin := n }

/-- The host drives `rst` to 0. From 1 this is the release of reset: N is sampled as `rst` falls (R133), and the
unit starts no step before every state element holds its reset value, however long `rst` was held (R132;
log 14, DEDUCED, safe); a `prog_len` beyond `IMEM_DEPTH` is refused (I7). Where `rst` is 0 already nothing
falls, and the host can write no state without asserting reset (R5, R28): nothing changes. The spec describes
no such event (log 17, DESIGN CHOICE, safe). -/
def hostReleaseReset (s : State) : Host.Outcome State Fault Refusal :=
  if s.rst = false then .next s
  else if Config.imemDepth < uint s.progLenPin then .refused .progLenBeyondStore
  else .next { s.resetEdge with rst := false, progLen := s.progLenPin }

/-- The next action where the one before it answered a state. -/
def andThen (o : Host.Outcome State Fault Refusal) (f : State → Host.Outcome State Fault Refusal) :
    Host.Outcome State Fault Refusal :=
  match o with
  | .next s => f s
  | .fault r => .fault r
  | .refused r => .refused r

/-- The host writes the words of a program at consecutive indices (R135). -/
def hostLoadWords : Nat → List InsnWord → State → Host.Outcome State Fault Refusal
  | _, [], s => .next s
  | i, w :: ws, s => andThen (hostLoadWord i w s) (hostLoadWords (i + 1) ws)

/-- The boot of rule R135: reset asserted, the program's words written to indices 0 to N-1, `prog_len` driven
to N, reset released. -/
def hostBoot (program : List InsnWord) (s : State) : Host.Outcome State Fault Refusal :=
  andThen (hostLoadWords 0 program s.assertReset) fun s1 =>
    andThen (hostDriveProgLen (BitVec.ofNat 32 program.length) s1) hostReleaseReset

end Sys2Proof.Machine
end

