-- ==== Sys2Proof/Machine/Observe.lean ====
section
/-! DEFINITION. What the host can see: the dump (R30), the output ports (R29) and the trace strobe (R31). All are
pure functions of the state (R94). -/

namespace Sys2Proof.Machine

/-- The dump: the PC, the four registers, data-memory words 0 to 9 and EQ, in the fixed order (R30). -/
structure Dump where
  pc : Word
  a : Word
  b : Word
  c : Word
  d : Word
  mem : List Word
  eq : Bool
deriving DecidableEq, Repr

/-- Data-memory word `k` as the observation port shows it. -/
def State.obsMem (s : State) (k : Fin Config.dumpMem) : Word :=
  s.memRead (k.castLE (by decide))

/-- The observation port (R30). -/
def State.dump (s : State) : Dump where
  pc := s.pc
  a := s.reg .A
  b := s.reg .B
  c := s.reg .C
  d := s.reg .D
  mem := (List.finRange Config.dumpMem).map s.obsMem
  eq := s.eq

/-- The output ports of rule R29. -/
structure Ports where
  imemAddr : Word
  obs : Dump
  traceValid : Bool
  halted : Bool
  cause : BitVec 4
  errInsn : InsnWord
deriving DecidableEq, Repr

/-- The values on the output ports: `imem_addr` is the PC (R45), `halted` and `cause` are the fields of STATUS
(R32). -/
def State.ports (s : State) : Ports where
  imemAddr := s.pc
  obs := s.dump
  traceValid := s.traceValid
  halted := s.halted
  cause := s.cause
  errInsn := s.errInsn

/-- The input port `imem_rdata`: the word the program store holds at `imem_addr` (R29). -/
def State.imemRdata (s : State) : Option InsnWord := s.ifetch (uint s.ports.imemAddr)

end Sys2Proof.Machine
end

