-- ==== Sys2Proof/Machine/Run.lean ====
section
/-! DEFINITION. Runs and traces (R90, R91, R144). Fuel stands here only; the machine has no step limit (I10). -/

namespace Sys2Proof.Machine

/-- A step that continues: it ends Running, and so emits a trace record (R31, R89). -/
def continuesTo (s : State) : Option State :=
  match step s with
  | .next t => if t.halted || s.rst then none else some t
  | _ => none

/-- The trace records of at most `fuel` steps: the dump after each continuing step, in step order; the
terminating step emits none (R31, R90). -/
def trace : Nat → State → List Dump
  | 0, _ => []
  | fuel + 1, s =>
    match continuesTo s with
    | some t => t.dump :: trace fuel t
    | none => []

/-- The run from `s` ends in `t` with cause `c` after at most `fuel` steps (R144). -/
def endsIn (fuel : Nat) (s t : State) (c : Cause) : Prop :=
  Host.Core.run Sys2Proof.core fuel s = .next t ∧ t.status = haltedStatus c

end Sys2Proof.Machine
end

