-- ==== Sys2Proof/WellFormed.lean ====
section
/-! DEFINITION. Well-formedness. The spec defines it for a word with respect to an opcode (R57); an `Instr`
carries register names, so every `Instr` has a well-formed word (log 11, DESIGN CHOICE, safe). A program is well-formed
when it fits the program store (R6). -/

namespace Sys2Proof

/-- The fixed bits of the word are those of the opcode: `(w & mask) == (o << 56)` (R57). -/
def fixedBitsRight (o : Opcode) (w : InsnWord) : Bool := w &&& o.format.mask == o.pattern

/-- Every register field the opcode's format uses is at most 3 (R57, R59). -/
def usedRegistersKnown (o : Opcode) (w : InsnWord) : Bool :=
  match o.format with
  | .ri => (fieldRa w).toNat ≤ 3
  | .rr => (fieldRa w).toNat ≤ 3 && (fieldRb w).toNat ≤ 3
  | .i => true
  | .n => true

/-- The word is well-formed for the opcode (R57). -/
def wordWellFormed (o : Opcode) (w : InsnWord) : Bool := fixedBitsRight o w && usedRegistersKnown o w

/-- The instruction's word is well-formed for its opcode. -/
def Instr.wellFormed (i : Instr) : Bool := wordWellFormed i.opcode (encode i)

/-- The program fits the program store: N ≤ `IMEM_DEPTH` (R6, R23). -/
def programFits (ws : List InsnWord) : Prop := ws.length ≤ Config.imemDepth

end Sys2Proof
end

