-- ==== Sys2Proof/Safety.lean ====
section
/-! DEFINITION. The terms claims are stated in: when a step happens, what a halt entry leaves, the frames, the
invariant every step keeps (10_state R18, R21, R22, R27), and a machine whose program is loaded. -/

namespace Sys2Proof.Machine

/-- A step happens: Running, and `rst` deasserted (R80). -/
structure Stepping (s : State) : Prop where
  released : s.rst = false
  running : s.halted = false

/-- Every register holds what it held. -/
def SameRegs (s t : State) : Prop := ∀ r, t.reg r = s.reg r

/-- Every register but one holds what it held. -/
def SameRegsBut (rd : Reg) (s t : State) : Prop := ∀ r, r ≠ rd → t.reg r = s.reg r

/-- Every data-memory word reads as before. -/
def SameDmem (s t : State) : Prop := ∀ a, t.memRead a = s.memRead a

/-- What no instruction that continues writes: STATUS, ERR_INSN, the program store, N, and the input pins. -/
structure SameControl (s t : State) : Prop where
  status : t.status = s.status
  errInsn : t.errInsn = s.errInsn
  imem : t.imem = s.imem
  progLen : t.progLen = s.progLen
  rst : t.rst = s.rst
  progLenPin : t.progLenPin = s.progLenPin

/-- `t` follows `s` by a step that continues: the strobe is raised and nothing of `SameControl` has changed
(R31, R83, R89). -/
structure Continued (s t : State) : Prop where
  strobe : t.traceValid = true
  control : SameControl s t

/-- `t` is `s` after halt entry with cause `c`, ERR_INSN holding `err`: STATUS is HALTED with the cause's code, no
strobe is raised, and nothing else has changed (R119). -/
structure HaltedFrom (c : Cause) (err : InsnWord) (s t : State) : Prop where
  halted : t.halted = true
  cause : t.cause = causeCode c
  status : t.status = (1 : BitVec 32) ||| ((causeCode c).setWidth 32 <<< 4)
  errInsn : t.errInsn = err
  noStrobe : t.traceValid = false
  regs : SameRegs s t
  pc : t.pc = s.pc
  eq : t.eq = s.eq
  dmem : SameDmem s t
  imem : t.imem = s.imem
  progLen : t.progLen = s.progLen
  rst : t.rst = s.rst
  progLenPin : t.progLenPin = s.progLenPin

/-- What holds between any two steps (R18, R21, R22, R23, R27, R31): both memories keep their form and lie inside
their spaces, N fits the store, the PC never reaches 2^31, STATUS is 0 or a halted status, ERR_INSN is
nonzero only after an error, and the strobe stands only while Running. -/
structure Inv (s : State) : Prop where
  dmemWf : s.dmem.wf = true
  imemRising : rising s.imem = true
  imemInStore : ∀ x ∈ s.imem, x.1 < Config.imemDepth
  progFits : uint s.progLen ≤ Config.imemDepth
  pcBound : uint s.pc ≤ 2 ^ 31 - 1
  statusLegal : s.status = 0 ∨ ∃ c, s.status = haltedStatus c
  errInsnOnError : s.errInsn ≠ 0 → ∃ k, s.status = haltedStatus (.runtimeError k)
  strobeRunning : s.traceValid = true → s.status = 0

/-- The host has loaded every word of the program (R135). -/
def Loaded (s : State) : Prop := ∀ i, i < uint s.progLen → ∃ w, s.ifetch i = some w

/-- An outcome with a function applied to its next state. -/
def mapNext (f : State → State) : Host.Outcome State Fault Refusal → Host.Outcome State Fault Refusal
  | .next s => .next (f s)
  | .fault r => .fault r
  | .refused r => .refused r

end Sys2Proof.Machine
end

