-- ==== Sys2Proof/Certificates/Slice0/Obligations.lean ====
section
/-! DEFINITION. The statements for the provers. Each docstring names the rule of the spec it formalises. -/

open Sys2Proof Sys2Proof.Machine

/-! ### Encoding (30_encoding, 40_fetch R84) -/

/-- R60, R64, R74: every instruction, with every operand, decodes from its own word. -/
def Obligations.EncodedInstructionDecodesToItself : Prop :=
  ∀ i : Instr, decode (encode i) = .insn i

/-- R57, R63: no two words are the same instruction, so ERR_INSN can be rebuilt from the instruction (log 8). -/
def Obligations.DecodedWordIsItsOwnEncoding : Prop :=
  ∀ (w : InsnWord) (i : Instr), decode w = .insn i → encode i = w

/-- R61: exactly the `op` values 0x00 and 0x0D to 0xFF raise UnknownOpcode; the all-zero word does. -/
def Obligations.UnknownOpcodeExactlyOnIllegalOp : Prop :=
  (∀ w : InsnWord,
    decode w = .error .unknownOpcode ↔ (fieldOp w).toNat = 0 ∨ 0x0D ≤ (fieldOp w).toNat) ∧
  decode 0 = .error .unknownOpcode

/-- R62: exactly a legal `op` with a 1 bit in a field its format does not use raises MalformedOperands. -/
def Obligations.MalformedExactlyOnNonzeroUnusedField : Prop :=
  ∀ w : InsnWord,
    decode w = .error .malformedOperands ↔
      (1 ≤ (fieldOp w).toNat ∧ (fieldOp w).toNat ≤ 3 ∧ (fieldRb w ≠ 0 ∨ fieldRsv w ≠ 0)) ∨
      (4 ≤ (fieldOp w).toNat ∧ (fieldOp w).toNat ≤ 8 ∧ (fieldRsv w ≠ 0 ∨ fieldImm w ≠ 0)) ∨
      (9 ≤ (fieldOp w).toNat ∧ (fieldOp w).toNat ≤ 11 ∧
        (fieldRa w ≠ 0 ∨ fieldRb w ≠ 0 ∨ fieldRsv w ≠ 0)) ∨
      ((fieldOp w).toNat = 12 ∧
        (fieldRa w ≠ 0 ∨ fieldRb w ≠ 0 ∨ fieldRsv w ≠ 0 ∨ fieldImm w ≠ 0))

/-- R59 with R84: once the must-be-zero fields are zero, exactly a used register field of 4 to 7 raises
UnknownRegister; 0 to 3 are A to D. -/
def Obligations.UnknownRegisterExactlyOnBadField : Prop :=
  (∀ w : InsnWord,
    decode w = .error .unknownRegister ↔
      (1 ≤ (fieldOp w).toNat ∧ (fieldOp w).toNat ≤ 3 ∧ fieldRb w = 0 ∧ fieldRsv w = 0 ∧
        4 ≤ (fieldRa w).toNat) ∨
      (4 ≤ (fieldOp w).toNat ∧ (fieldOp w).toNat ≤ 8 ∧ fieldRsv w = 0 ∧ fieldImm w = 0 ∧
        (4 ≤ (fieldRa w).toNat ∨ 4 ≤ (fieldRb w).toNat))) ∧
  Reg.ofNumber 0 = some .A ∧ Reg.ofNumber 1 = some .B ∧ Reg.ofNumber 2 = some .C ∧
  Reg.ofNumber 3 = some .D

/-- R57: a word is well-formed for an opcode exactly when it decodes to an instruction of that opcode. -/
def Obligations.WellFormedWordsAreTheInstructions : Prop :=
  ∀ (o : Opcode) (w : InsnWord),
    wordWellFormed o w = true ↔ ∃ i, decode w = .insn i ∧ i.opcode = o

/-- R98 to R113: the example words of the instruction pages decode to the instructions they stand for. -/
def Obligations.ExampleWordsDecode : Prop :=
  decode 0x0100000000000005 = .insn (.load .A 5) ∧
  decode 0x0220000000000007 = .insn (.loadm .B 7) ∧
  decode 0x0300000000000000 = .insn (.store .A 0) ∧
  decode 0x0404000000000000 = .insn (.add .A .B) ∧
  decode 0x0528000000000000 = .insn (.sub .B .C) ∧
  decode 0x0648000000000000 = .insn (.mul .C .C) ∧
  decode 0x0704000000000000 = .insn (.div .A .B) ∧
  decode 0x0804000000000000 = .insn (.cmp .A .B) ∧
  decode 0x0900000000000009 = .insn (.jmp 9) ∧
  decode 0x0A00000000000004 = .insn (.je 4) ∧
  decode 0x0B00000000000004 = .insn (.jne 4) ∧
  decode 0x0C00000000000000 = .insn .halt

/-- R47: the byte image of a program gives the program back, and a word's byte 0 is its bits 7:0. -/
def Obligations.ProgramImageGivesTheProgramBack : Prop :=
  (∀ ws : List InsnWord, wordsOfImage (imageOfWords ws) = some ws) ∧
  (∀ (w : InsnWord) (ws : List InsnWord), (imageOfWords (w :: ws)).head? = some (w.extractLsb' 0 8))

/-! ### The text level (R66-R76) -/

/-- R74: the word of a text line decodes to the same instruction, or the same error kind, as the line. -/
def Obligations.AssembledLineDecodesAsTheLine : Prop :=
  ∀ line : List Char,
    decode (assembleLine line) =
      match decodeLine line with
      | .insn i => .insn i.toInstr
      | .error e => .error e.kind

/-- R76: assembling the printed form of an instruction word gives the same word back. -/
def Obligations.DisassembledInstructionReassembles : Prop :=
  ∀ (w : InsnWord) (i : Instr), decode w = .insn i → assembleLine (disassemble w) = w

/-- R75: saturating an address or target literal keeps its outcome: the same data-memory address or none, a
negative target iff the literal is negative, the literal itself while it fits, and 2^31-1 above. -/
def Obligations.SaturationKeepsTheOutcome : Prop :=
  ∀ v : Int,
    (∀ a : DmemAddr, dmemAddr? (saturate32 v) = some a ↔ v = (a.val : Int)) ∧
    (jumpTarget? (saturate32 v) = none ↔ v < 0) ∧
    (-(2 ^ 31) ≤ v → v ≤ 2 ^ 31 - 1 → sint (saturate32 v) = v) ∧
    (2 ^ 31 - 1 < v → uint (saturate32 v) = 2 ^ 31 - 1)

/-- R68: a line fails with UnknownOpcode exactly when its first token is none of the twelve mnemonics. (That a
line with no token fails so too is the model's reading, log 10.) -/
def Obligations.TextOpcodeTokenIsExact : Prop :=
  ∀ line : List Char,
    decodeLine line = .error .unknownOpcode ↔ ∀ o : Opcode, (tokens line).head? ≠ some (mnemonic o)

/-- R71: an integer token is an optional sign and one or more decimal digits, and denotes that integer. -/
def Obligations.IntegerTokenDenotesItsInteger : Prop :=
  ∀ (t : Token) (v : Int),
    intOfToken t = some v ↔
      ∃ (sign digits : List Char),
        t = sign ++ digits ∧ digits ≠ [] ∧ (∀ c ∈ digits, 48 ≤ c.toNat ∧ c.toNat ≤ 57) ∧
        (((sign = [] ∨ sign = ['+']) ∧
            v = (digits.foldl (fun n c => 10 * n + (c.toNat - 48)) 0 : Nat)) ∨
          (sign = ['-'] ∧ v = -((digits.foldl (fun n c => 10 * n + (c.toNat - 48)) 0 : Nat) : Int)))

/-! ### Integers and the ALU (00_scope R8, R9; 42_arithmetic) -/

/-- R8: `sint` is the two's-complement reading, in -2^31 to 2^31-1, and `wrap32(n)` is the one 32-bit value
whose signed reading is congruent to `n` modulo 2^32. (Two's complement: log 12.) -/
def Obligations.WrapIsTheUniqueCongruentWord : Prop :=
  (∀ v : Word, -(2 ^ 31) ≤ sint v ∧ sint v ≤ 2 ^ 31 - 1 ∧
    sint v = (if uint v < 2 ^ 31 then (uint v : Int) else (uint v : Int) - 2 ^ 32)) ∧
  (∀ (n : Int) (v : Word), v = wrap32 n ↔ (sint v - n) % 2 ^ 32 = 0)

/-- R9: `floor_div(a, b)` is the greatest `q` with `q*b ≤ a` when `b > 0`, and with `q*b ≥ a` when `b < 0`. -/
def Obligations.FloorDivIsTheGreatestQuotient : Prop :=
  ∀ a b : Int,
    (0 < b → floorDiv a b * b ≤ a ∧ ∀ q : Int, q * b ≤ a → q ≤ floorDiv a b) ∧
    (b < 0 → a ≤ floorDiv a b * b ∧ ∀ q : Int, a ≤ q * b → q ≤ floorDiv a b)

/-- The rows of the table of R106 with a nonzero divisor: dividend, divisor, result. -/
def Sys2Proof.Machine.floorDivTable : List (Int × Int × Int) :=
  [(7, 2, 3), (-7, 2, -4), (7, -2, -4), (-7, -2, 3), (6, 3, 2), (-6, 3, -2), (1, 2, 0), (-1, 2, -1),
    (0, 5, 0), (0, -5, 0), (-(2 ^ 31), 1, -(2 ^ 31)), (-(2 ^ 31), -1, -(2 ^ 31)),
    (2 ^ 31 - 1, -1, -(2 ^ 31 - 1))]

/-- R106: DIV gives the result of every row of the table, and DivisionByZero on its two rows with divisor 0. -/
def Obligations.DivFollowsTheSignTable : Prop :=
  (∀ row ∈ floorDivTable, ∀ (rd rs : Reg) (s : State),
    sint (s.reg rd) = row.1 → sint (s.reg rs) = row.2.1 →
      ∃ t, exec (.div rd rs) s = .next t ∧ sint (t.reg rd) = row.2.2 ∧ t.status = s.status) ∧
  (∀ (rd rs : Reg) (s : State), sint (s.reg rd) = 5 ∨ sint (s.reg rd) = 0 → sint (s.reg rs) = 0 →
    ∃ t, exec (.div rd rs) s = .next t ∧ t.reg rd = s.reg rd ∧
      t.cause = causeCode (.runtimeError .divisionByZero))

/-- R107: (-2^31) DIV (-1) gives -2^31 with no error and no flag, and no other quotient overflows. -/
def Obligations.DivOverflowsOnlyAtTheMinimum : Prop :=
  (∀ (rd rs : Reg) (s : State), sint (s.reg rd) = -(2 ^ 31) → sint (s.reg rs) = -1 →
    ∃ t, exec (.div rd rs) s = .next t ∧ sint (t.reg rd) = -(2 ^ 31) ∧ t.status = s.status ∧ t.eq = s.eq) ∧
  (∀ x y : Word, sint y ≠ 0 → ¬(sint x = -(2 ^ 31) ∧ sint y = -1) →
    sint (wrap32 (floorDiv (sint x) (sint y))) = floorDiv (sint x) (sint y))

/-- R101: a result is the exact one whenever the exact one lies in -2^31 to 2^31-1. -/
def Obligations.ArithmeticIsExactInRange : Prop :=
  ∀ (rd rs : Reg) (s : State),
    (-(2 ^ 31) ≤ sint (s.reg rd) + sint (s.reg rs) → sint (s.reg rd) + sint (s.reg rs) ≤ 2 ^ 31 - 1 →
      ∃ t, exec (.add rd rs) s = .next t ∧ sint (t.reg rd) = sint (s.reg rd) + sint (s.reg rs)) ∧
    (-(2 ^ 31) ≤ sint (s.reg rd) - sint (s.reg rs) → sint (s.reg rd) - sint (s.reg rs) ≤ 2 ^ 31 - 1 →
      ∃ t, exec (.sub rd rs) s = .next t ∧ sint (t.reg rd) = sint (s.reg rd) - sint (s.reg rs)) ∧
    (-(2 ^ 31) ≤ sint (s.reg rd) * sint (s.reg rs) → sint (s.reg rd) * sint (s.reg rs) ≤ 2 ^ 31 - 1 →
      ∃ t, exec (.mul rd rs) s = .next t ∧ sint (t.reg rd) = sint (s.reg rd) * sint (s.reg rs)) ∧
    (sint (s.reg rs) ≠ 0 → floorDiv (sint (s.reg rd)) (sint (s.reg rs)) ≤ 2 ^ 31 - 1 →
      ∃ t, exec (.div rd rs) s = .next t ∧
        sint (t.reg rd) = floorDiv (sint (s.reg rd)) (sint (s.reg rs)))

/-- R87: an instruction that names one register twice reads its old value for both operands: ADD doubles it, SUB
clears it, MUL squares it, DIV gives 1 (R105), CMP sets EQ. -/
def Obligations.SameRegisterTwiceReadsTheOldValue : Prop :=
  ∀ (r : Reg) (s : State),
    (∃ t, exec (.add r r) s = .next t ∧ t.reg r = wrap32 (2 * sint (s.reg r))) ∧
    (∃ t, exec (.sub r r) s = .next t ∧ t.reg r = 0) ∧
    (∃ t, exec (.mul r r) s = .next t ∧ t.reg r = wrap32 (sint (s.reg r) ^ 2)) ∧
    (s.reg r ≠ 0 → ∃ t, exec (.div r r) s = .next t ∧ t.reg r = 1) ∧
    (∃ t, exec (.cmp r r) s = .next t ∧ t.eq = true)

/-! ### Each instruction: its result, its frame, where it completes and where it halts -/

/-- R98: LOAD writes the immediate to Rd and advances the PC, in every state. -/
def Obligations.LoadWritesTheImmediate : Prop :=
  ∀ (rd : Reg) (imm : Word) (s : State),
    ∃ t, exec (.load rd imm) s = .next t ∧
      t.reg rd = imm ∧ t.pc = s.pc + 1 ∧
      SameRegsBut rd s t ∧ t.eq = s.eq ∧ SameDmem s t ∧ Continued s t

/-- R99: LOADM writes the word at a valid address to Rd and advances the PC; on any other address it halts with
InvalidMemoryAddress and its own word. -/
def Obligations.LoadmReadsTheWord : Prop :=
  ∀ (rd : Reg) (addr : Word) (s : State),
    (∀ a : DmemAddr, sint addr = (a.val : Int) →
      ∃ t, exec (.loadm rd addr) s = .next t ∧
        t.reg rd = s.memRead a ∧ t.pc = s.pc + 1 ∧
        SameRegsBut rd s t ∧ t.eq = s.eq ∧ SameDmem s t ∧ Continued s t) ∧
    (sint addr < 0 ∨ 255 < sint addr →
      ∃ t, exec (.loadm rd addr) s = .next t ∧
        HaltedFrom (.runtimeError .invalidMemoryAddress) (encode (.loadm rd addr)) s t)

/-- R100: STORE writes Rs to the word at a valid address, and to no other, and advances the PC; on any other
address it halts with InvalidMemoryAddress and its own word. -/
def Obligations.StoreWritesTheWord : Prop :=
  ∀ (rs : Reg) (addr : Word) (s : State),
    (∀ a : DmemAddr, sint addr = (a.val : Int) →
      ∃ t, exec (.store rs addr) s = .next t ∧
        t.memRead a = s.reg rs ∧ (∀ x, x ≠ a → t.memRead x = s.memRead x) ∧ t.pc = s.pc + 1 ∧
        SameRegs s t ∧ t.eq = s.eq ∧ Continued s t) ∧
    (sint addr < 0 ∨ 255 < sint addr →
      ∃ t, exec (.store rs addr) s = .next t ∧
        HaltedFrom (.runtimeError .invalidMemoryAddress) (encode (.store rs addr)) s t)

/-- R102: ADD. -/
def Obligations.AddWritesTheWrappedSum : Prop :=
  ∀ (rd rs : Reg) (s : State),
    ∃ t, exec (.add rd rs) s = .next t ∧
      t.reg rd = wrap32 (sint (s.reg rd) + sint (s.reg rs)) ∧ t.pc = s.pc + 1 ∧
      SameRegsBut rd s t ∧ t.eq = s.eq ∧ SameDmem s t ∧ Continued s t

/-- R103: SUB. -/
def Obligations.SubWritesTheWrappedDifference : Prop :=
  ∀ (rd rs : Reg) (s : State),
    ∃ t, exec (.sub rd rs) s = .next t ∧
      t.reg rd = wrap32 (sint (s.reg rd) - sint (s.reg rs)) ∧ t.pc = s.pc + 1 ∧
      SameRegsBut rd s t ∧ t.eq = s.eq ∧ SameDmem s t ∧ Continued s t

/-- R104: MUL. -/
def Obligations.MulWritesTheWrappedProduct : Prop :=
  ∀ (rd rs : Reg) (s : State),
    ∃ t, exec (.mul rd rs) s = .next t ∧
      t.reg rd = wrap32 (sint (s.reg rd) * sint (s.reg rs)) ∧ t.pc = s.pc + 1 ∧
      SameRegsBut rd s t ∧ t.eq = s.eq ∧ SameDmem s t ∧ Continued s t

/-- R105: DIV by a nonzero divisor writes the wrapped floor quotient; by zero it halts with DivisionByZero and its
own word. -/
def Obligations.DivWritesTheWrappedFloorQuotient : Prop :=
  ∀ (rd rs : Reg) (s : State),
    (sint (s.reg rs) ≠ 0 →
      ∃ t, exec (.div rd rs) s = .next t ∧
        t.reg rd = wrap32 (floorDiv (sint (s.reg rd)) (sint (s.reg rs))) ∧ t.pc = s.pc + 1 ∧
        SameRegsBut rd s t ∧ t.eq = s.eq ∧ SameDmem s t ∧ Continued s t) ∧
    (sint (s.reg rs) = 0 →
      ∃ t, exec (.div rd rs) s = .next t ∧
        HaltedFrom (.runtimeError .divisionByZero) (encode (.div rd rs)) s t)

/-- R109, R20: CMP sets EQ exactly when the two registers are equal, and FLAGS shows it. -/
def Obligations.CmpSetsEqExactlyOnEquality : Prop :=
  ∀ (ra rb : Reg) (s : State),
    ∃ t, exec (.cmp ra rb) s = .next t ∧
      (t.eq = true ↔ s.reg ra = s.reg rb) ∧
      t.flags = (if s.reg ra = s.reg rb then 1 else 0) ∧ t.pc = s.pc + 1 ∧
      SameRegs s t ∧ SameDmem s t ∧ Continued s t

/-- R110: JMP sets the PC to a non-negative target; on a negative one it halts with InvalidJumpTarget. -/
def Obligations.JmpGoesToTheTarget : Prop :=
  ∀ (target : Word) (s : State),
    (0 ≤ sint target →
      ∃ t, exec (.jmp target) s = .next t ∧ t.pc = target ∧ (uint t.pc : Int) = sint target ∧
        SameRegs s t ∧ t.eq = s.eq ∧ SameDmem s t ∧ Continued s t) ∧
    (sint target < 0 →
      ∃ t, exec (.jmp target) s = .next t ∧
        HaltedFrom (.runtimeError .invalidJumpTarget) (encode (.jmp target)) s t)

/-- R111: JE jumps when EQ = 1 and falls through, whatever its target, when EQ = 0. -/
def Obligations.JeJumpsWhenEqIsSet : Prop :=
  ∀ (target : Word) (s : State),
    (s.eq = true → 0 ≤ sint target →
      ∃ t, exec (.je target) s = .next t ∧ t.pc = target ∧
        SameRegs s t ∧ t.eq = s.eq ∧ SameDmem s t ∧ Continued s t) ∧
    (s.eq = true → sint target < 0 →
      ∃ t, exec (.je target) s = .next t ∧
        HaltedFrom (.runtimeError .invalidJumpTarget) (encode (.je target)) s t) ∧
    (s.eq = false →
      ∃ t, exec (.je target) s = .next t ∧ t.pc = s.pc + 1 ∧
        SameRegs s t ∧ t.eq = s.eq ∧ SameDmem s t ∧ Continued s t)

/-- R112: JNE jumps when EQ = 0 and falls through, whatever its target, when EQ = 1. -/
def Obligations.JneJumpsWhenEqIsClear : Prop :=
  ∀ (target : Word) (s : State),
    (s.eq = false → 0 ≤ sint target →
      ∃ t, exec (.jne target) s = .next t ∧ t.pc = target ∧
        SameRegs s t ∧ t.eq = s.eq ∧ SameDmem s t ∧ Continued s t) ∧
    (s.eq = false → sint target < 0 →
      ∃ t, exec (.jne target) s = .next t ∧
        HaltedFrom (.runtimeError .invalidJumpTarget) (encode (.jne target)) s t) ∧
    (s.eq = true →
      ∃ t, exec (.jne target) s = .next t ∧ t.pc = s.pc + 1 ∧
        SameRegs s t ∧ t.eq = s.eq ∧ SameDmem s t ∧ Continued s t)

/-- R113: HALT stops the run with NormalHalt in every state; the PC keeps the index of the HALT, ERR_INSN is not
written, and the ports show it. -/
def Obligations.HaltStopsTheRunNormally : Prop :=
  ∀ s : State,
    ∃ t, exec .halt s = .next t ∧ HaltedFrom .normalHalt s.errInsn s t ∧
      t.status = 0x11 ∧ t.ports.halted = true ∧ t.ports.cause = 1 ∧ t.ports.traceValid = false

/-! ### Shared checks -/

/-- R41: for LOADM and STORE the address is `sint(imm)`, valid exactly in 0 to 255; a valid one raises nothing, an
invalid one raises InvalidMemoryAddress with nothing else written. -/
def Obligations.DmemAddressCheckIsExact : Prop :=
  ∀ (i : Instr) (r : Reg) (imm : Word) (s : State), i = .loadm r imm ∨ i = .store r imm →
    (0 ≤ sint imm ∧ sint imm ≤ 255 → ∃ t, exec i s = .next t ∧ t.status = s.status) ∧
    (¬(0 ≤ sint imm ∧ sint imm ≤ 255) →
      ∃ t, exec i s = .next t ∧ HaltedFrom (.runtimeError .invalidMemoryAddress) (encode i) s t)

/-- R114: a taken jump with a negative target raises InvalidJumpTarget and leaves everything else; with any other
target it sets the PC with no further check, and a target at or beyond N ends the run at the next step;
a jump not taken never raises. -/
def Obligations.TargetIsCheckedOnlyWhenTaken : Prop :=
  (∀ (i : Instr) (target : Word) (s : State),
    i = .jmp target ∨ (i = .je target ∧ s.eq = true) ∨ (i = .jne target ∧ s.eq = false) →
      (sint target < 0 →
        ∃ t, exec i s = .next t ∧ HaltedFrom (.runtimeError .invalidJumpTarget) (encode i) s t) ∧
      (0 ≤ sint target →
        ∃ t, exec i s = .next t ∧ t.pc = target ∧ t.status = s.status ∧
          (Stepping s → uint s.progLen ≤ uint target →
            ∃ u, step t = .next u ∧ HaltedFrom .endOfProgram t.errInsn t u))) ∧
  (∀ (i : Instr) (target : Word) (s : State),
    (i = .je target ∧ s.eq = false) ∨ (i = .jne target ∧ s.eq = true) →
      ∃ t, exec i s = .next t ∧ t.pc = s.pc + 1 ∧ t.status = s.status)

/-! ### Rules about every instruction -/

/-- R14: a register changes only as the destination of LOAD, LOADM, ADD, SUB, MUL or DIV, and an instruction that
ends in an error writes none. -/
def Obligations.RegistersChangeOnlyAsDestinations : Prop :=
  (∀ (i : Instr) (s t : State) (r : Reg), exec i s = .next t → t.reg r ≠ s.reg r →
    (∃ v, i = .load r v) ∨ (∃ v, i = .loadm r v) ∨ (∃ q, i = .add r q) ∨ (∃ q, i = .sub r q) ∨
      (∃ q, i = .mul r q) ∨ (∃ q, i = .div r q)) ∧
  (∀ (i : Instr) (s t : State), exec i s = .next t → s.halted = false → t.halted = true → SameRegs s t)

/-- R19, R108: only CMP changes EQ, and only JE and JNE read it. -/
def Obligations.OnlyCmpWritesEqAndOnlyJumpsReadIt : Prop :=
  (∀ (i : Instr) (s t : State), exec i s = .next t → t.eq ≠ s.eq → ∃ ra rb, i = .cmp ra rb) ∧
  (∀ (i : Instr) (s : State) (v : Bool), (∀ x, i ≠ .je x) → (∀ x, i ≠ .jne x) →
    mapNext (State.setEq · false) (exec i (s.setEq v)) = mapNext (State.setEq · false) (exec i s))

/-- R44: only STORE changes the data memory, and only LOADM reads it; the observation port shows words 0 to 9. -/
def Obligations.OnlyStoreWritesAndOnlyLoadmReadsDmem : Prop :=
  (∀ (i : Instr) (s t : State), exec i s = .next t → t.dmem ≠ s.dmem → ∃ r x, i = .store r x) ∧
  (∀ (i : Instr) (s : State) (m : Memory), (∀ r x, i ≠ .loadm r x) →
    mapNext (fun t => { t with dmem := [] }) (exec i { s with dmem := m }) =
      mapNext (fun t => { t with dmem := [] }) (exec i s)) ∧
  (∀ (s : State) (m : Memory), (∀ a : DmemAddr, a.val < 10 → m.read a = s.dmem.read a) →
    State.dump { s with dmem := m } = s.dump)

/-- R52, R138: no transition writes the program store, N, or an input pin. -/
def Obligations.NoStepWritesTheProgram : Prop :=
  ∀ s t : State, step s = .next t →
    t.imem = s.imem ∧ t.progLen = s.progLen ∧ t.rst = s.rst ∧ t.progLenPin = s.progLenPin

/-- R116: the errors each opcode can raise at decode, and the one way each instruction can end the run at
execute. -/
def Obligations.EachInstructionRaisesOnlyItsErrors : Prop :=
  (∀ (w : InsnWord) (e : DecodeError), decode w = .error e →
    match e with
    | .unknownOpcode => (fieldOp w).toNat = 0 ∨ 12 < (fieldOp w).toNat
    | .malformedOperands => 1 ≤ (fieldOp w).toNat ∧ (fieldOp w).toNat ≤ 12
    | .unknownRegister => 1 ≤ (fieldOp w).toNat ∧ (fieldOp w).toNat ≤ 8) ∧
  (∀ (i : Instr) (s t : State), s.halted = false → exec i s = .next t → t.halted = true →
    (∃ r x, (i = .loadm r x ∨ i = .store r x) ∧ t.cause = 6) ∨
    (∃ rd rs, i = .div rd rs ∧ t.cause = 7) ∨
    (∃ x, (i = .jmp x ∨ i = .je x ∨ i = .jne x) ∧ t.cause = 8) ∨
    (i = .halt ∧ t.cause = 1))

/-! ### The step (40_fetch, 60_exceptions) -/

/-- R81, R86, R95: at a word that decodes to an instruction, the step is that instruction's meaning. -/
def Obligations.StepRunsTheDecodedInstruction : Prop :=
  ∀ (s : State) (w : InsnWord) (i : Instr), Stepping s → uint s.pc < uint s.progLen →
    s.ifetch (uint s.pc) = some w → decode w = .insn i → step s = exec i s

/-- R84, R95, R119: at a word that decodes to an error, the step halts with that error and that word. -/
def Obligations.DecodeErrorHaltsTheStep : Prop :=
  ∀ (s : State) (w : InsnWord) (e : DecodeError), Stepping s → uint s.pc < uint s.progLen →
    s.ifetch (uint s.pc) = some w → decode w = .error e →
      ∃ t, step s = .next t ∧ HaltedFrom (.runtimeError (decodeErrorKind e)) w s t

/-- R82: at or beyond N the step halts with EndOfProgram and leaves everything else, ERR_INSN included. -/
def Obligations.FetchPastTheEndEndsTheProgram : Prop :=
  ∀ s : State, Stepping s → uint s.progLen ≤ uint s.pc →
    ∃ t, step s = .next t ∧ HaltedFrom .endOfProgram s.errInsn s t

/-- R89, R83, R119: a step ends in exactly one of four ways. Only `continue` leaves it Running, with the strobe up
and STATUS, ERR_INSN and the program as before; every other way halts with its cause, writes ERR_INSN
only for an error, with the word fetched, and writes nothing else. -/
def Obligations.StepEndsInOneOfFourWays : Prop :=
  ∀ s t : State, Stepping s → step s = .next t →
    (t.halted = false ∧ Continued s t ∧ uint s.pc < uint s.progLen ∧
      ∃ w i, s.ifetch (uint s.pc) = some w ∧ decode w = .insn i ∧ i ≠ .halt) ∨
    (HaltedFrom .normalHalt s.errInsn s t ∧ uint s.pc < uint s.progLen ∧
      ∃ w, s.ifetch (uint s.pc) = some w ∧ decode w = .insn .halt) ∨
    (HaltedFrom .endOfProgram s.errInsn s t ∧ uint s.progLen ≤ uint s.pc) ∨
    (∃ k w, HaltedFrom (.runtimeError k) w s t ∧ uint s.pc < uint s.progLen ∧
      s.ifetch (uint s.pc) = some w)

/-- R117: after an error the PC is the offending index and ERR_INSN the offending word, from which the faulting
address, the faulting target and the divisor register can be read. -/
def Obligations.ErrorRecordLocatesTheFault : Prop :=
  ∀ (s t : State) (k : ErrorKind), Stepping s → step s = .next t → t.halted = true →
    t.cause = causeCode (.runtimeError k) →
      t.pc = s.pc ∧ s.ifetch (uint s.pc) = some t.errInsn ∧
      (k = .invalidMemoryAddress →
        sint (fieldImm t.errInsn) < 0 ∨ 255 < sint (fieldImm t.errInsn)) ∧
      (k = .invalidJumpTarget → sint (fieldImm t.errInsn) < 0) ∧
      (k = .divisionByZero → ∃ r : Reg, r.number = fieldRb t.errInsn ∧ s.reg r = 0)

/-- R92, R118: Halted, the unit writes nothing, for any number of transitions, and only reset leads out. (That a
transition of the halted machine answers the same state is the model's reading, log 5.) -/
def Obligations.HaltedIsTerminal : Prop :=
  (∀ (s : State) (n : Nat), s.rst = false → s.halted = true → Host.Core.run core n s = .next s) ∧
  (∀ s t : State, s.halted = true → step s = .next t → t.halted = false → s.rst = true)

/-- R93, R137, R23: of the program store a step sees only the word at the PC, and that only when the PC is below N:
two stores that agree there give the same step. -/
def Obligations.OnlyTheWordAtThePcMatters : Prop :=
  ∀ (s : State) (m : ProgramStore),
    (uint s.pc < uint s.progLen → cellAt (uint s.pc) m = cellAt (uint s.pc) s.imem) →
      step { s with imem := m } = mapNext (fun t => { t with imem := m }) (step s)

/-- R135, R143: a machine whose program is loaded always has a next state, and its program stays loaded. -/
def Obligations.LoadedMachineNeverStops : Prop :=
  ∀ s : State, Loaded s → ∃ t, step s = .next t ∧ Loaded t

/-- R50, R139: a LOADM right after a STORE to the same address gives the stored value. -/
def Obligations.StoreThenLoadmGivesTheValue : Prop :=
  ∀ (rs rd : Reg) (addr : Word) (s : State), 0 ≤ sint addr → sint addr ≤ 255 →
    ∃ t u, exec (.store rs addr) s = .next t ∧ exec (.loadm rd addr) t = .next u ∧
      u.reg rd = s.reg rs ∧ SameRegsBut rd s u ∧ u.pc = s.pc + 2 ∧ SameDmem t u

/-- Canonical form (log 1): two well-formed data memories that read the same everywhere are equal. -/
def Obligations.EqualReadsMakeEqualMemories : Prop :=
  ∀ m n : Memory, m.wf = true → n.wf = true → (∀ a, m.read a = n.read a) → m = n

/-! ### Observation and trace (R29-R32, R90) -/

/-- R29, R30, R32, R45, R115: what each output port shows, and the code of each cause. -/
def Obligations.OutputPortsShowTheState : Prop :=
  (∀ s : State,
    s.dump.pc = s.pc ∧ s.dump.a = s.a ∧ s.dump.b = s.b ∧ s.dump.c = s.c ∧ s.dump.d = s.d ∧
    s.dump.eq = s.eq ∧ s.dump.mem.length = 10 ∧
    (∀ a : DmemAddr, a.val < 10 → s.dump.mem[a.val]? = some (s.memRead a)) ∧
    s.ports.imemAddr = s.pc ∧ s.ports.obs = s.dump ∧ s.ports.traceValid = s.traceValid ∧
    s.ports.halted = s.status.getLsbD 0 ∧ s.ports.cause = s.status.extractLsb' 4 4 ∧
    s.ports.errInsn = s.errInsn) ∧
  causeCode .normalHalt = 1 ∧ causeCode .endOfProgram = 2 ∧
  causeCode (.runtimeError .unknownOpcode) = 3 ∧ causeCode (.runtimeError .malformedOperands) = 4 ∧
  causeCode (.runtimeError .unknownRegister) = 5 ∧
  causeCode (.runtimeError .invalidMemoryAddress) = 6 ∧
  causeCode (.runtimeError .divisionByZero) = 7 ∧ causeCode (.runtimeError .invalidJumpTarget) = 8

/-- R100, R30: a store to an address of 10 or more shows in the dump only as the PC's advance; one below 10 shows
at its place. -/
def Obligations.StoreShowsInTheDumpOnlyBelowTen : Prop :=
  ∀ (rs : Reg) (addr : Word) (s : State),
    (10 ≤ sint addr → sint addr ≤ 255 →
      ∃ t, exec (.store rs addr) s = .next t ∧ t.dump = { s.dump with pc := s.pc + 1 }) ∧
    (0 ≤ sint addr → sint addr < 10 →
      ∃ t, exec (.store rs addr) s = .next t ∧
        t.dump = { s.dump with pc := s.pc + 1, mem := s.dump.mem.set (uint addr) (s.reg rs) })

/-- R90, R31: while a run continues its trace holds one record per step, and the trace of the whole is the trace so
far followed by the trace from there; a halted machine emits none. -/
def Obligations.TraceHoldsOneRecordPerContinuingStep : Prop :=
  (∀ (s t : State) (j k : Nat), s.rst = false → Host.Core.run core j s = .next t → t.halted = false →
    (trace j s).length = j ∧ trace (j + k) s = trace j s ++ trace k t) ∧
  (∀ (s : State) (k : Nat), s.halted = true → trace k s = [])

/-- R144: a run that has ended has one final state and one cause, however many further transitions are allowed. -/
def Obligations.EndOfRunIsFinal : Prop :=
  ∀ (s t : State) (c : Cause) (n : Nat), s.rst = false → endsIn n s t c →
    (∀ k, endsIn (n + k) s t c) ∧ (∀ (m : Nat) (u : State) (d : Cause), endsIn m s u d → u = t ∧ d = c)

/-! ### Reset and boot (70_reset) -/

/-- R131, R133: an edge with `rst` = 1 gives every register, the PC, EQ, FLAGS, every data-memory word, STATUS,
ERR_INSN and the strobe the value 0 and leaves the program store; as `rst` falls N is sampled from the
`prog_len` input. With `rst` 0 already, a release changes nothing (R28: no host write without an asserted
reset; that it answers the same state is the model's choice, log 17). -/
def Obligations.ResetGivesTheResetValues : Prop :=
  (∀ s : State, s.rst = true →
    ∃ t, step s = .next t ∧ (∀ r, t.reg r = 0) ∧ t.pc = 0 ∧ t.eq = false ∧ t.flags = 0 ∧
      (∀ a, t.memRead a = 0) ∧ t.status = 0 ∧ t.errInsn = 0 ∧ t.traceValid = false ∧
      t.imem = s.imem ∧ t.rst = true) ∧
  (∀ s : State, s.rst = true → uint s.progLenPin ≤ Config.imemDepth →
    ∃ t, hostReleaseReset s = .next t ∧ t.progLen = s.progLenPin ∧ t.rst = false ∧ t.imem = s.imem ∧
      (∀ r, t.reg r = 0) ∧ t.pc = 0 ∧ t.eq = false ∧ t.flags = 0 ∧ (∀ a, t.memRead a = 0) ∧
      t.status = 0 ∧ t.errInsn = 0 ∧ t.traceValid = false) ∧
  (∀ s : State, s.rst = false → hostReleaseReset s = .next s)

/-- R133, R134: the values of `State.reset`. That its program is empty (N = 0) and its pins are 0 is the model's
choice (log 3, log 7). -/
def Obligations.ResetStateHoldsTheResetValues : Prop :=
  (∀ r, State.reset.reg r = 0) ∧ State.reset.pc = 0 ∧ State.reset.eq = false ∧
  State.reset.flags = 0 ∧ (∀ a, State.reset.memRead a = 0) ∧ State.reset.dmem.wf = true ∧
  State.reset.status = 0 ∧ State.reset.errInsn = 0 ∧ State.reset.traceValid = false ∧
  State.reset.rst = false ∧ State.reset.progLen = 0 ∧ Stepping State.reset

/-- R135, R131: booting a program that fits the store, from any state, answers the reset state with the program's
words at indices 0 to N-1 and N its length; from a state that meets the invariant it meets the invariant,
with the program loaded. -/
def Obligations.BootLoadsTheProgram : Prop :=
  ∀ (ws : List InsnWord) (s : State), programFits ws →
    ∃ t, hostBoot ws s = .next t ∧ uint t.progLen = ws.length ∧
      (∀ i, i < ws.length → t.ifetch i = ws[i]?) ∧ Loaded t ∧
      t = { State.reset with imem := t.imem, progLen := t.progLen, progLenPin := t.progLen } ∧
      (Inv s → Inv t)

/-- R138, I7: a host write during a run, an IMEM write beyond the store and a `prog_len` beyond it are refused; so
is the boot of a program too long for the store. (The refusals' names are the model's, log 9.) -/
def Obligations.BrokenHostDutiesAreRefused : Prop :=
  (∀ (s : State) (i : Nat) (w : InsnWord) (n : Word), s.rst = false →
    hostLoadWord i w s = .refused .hostWriteDuringRun ∧
    hostDriveProgLen n s = .refused .hostWriteDuringRun) ∧
  (∀ s : State, s.rst = true → Config.imemDepth < uint s.progLenPin →
    hostReleaseReset s = .refused .progLenBeyondStore) ∧
  (∀ (ws : List InsnWord) (s : State), ¬programFits ws →
    hostBoot ws s = .refused .imemIndexBeyondStore)

/-- R136: a booted program of no words ends at its first step with EndOfProgram, every other value as at
reset. -/
def Obligations.EmptyProgramEndsAtItsFirstStep : Prop :=
  ∀ s : State, ∃ t u, hostBoot [] s = .next t ∧ step t = .next u ∧
    HaltedFrom .endOfProgram 0 t u ∧ (∀ r, u.reg r = 0) ∧ u.pc = 0 ∧ u.eq = false ∧
    (∀ a, u.memRead a = 0)

/-! ### The invariant -/

/-- R18, R21, R22, R23, R27, R31: every transition, from every state that meets the invariant, gives a state that
meets it. -/
def Obligations.EveryStepKeepsTheInvariant : Prop :=
  ∀ s t : State, Inv s → step s = .next t → Inv t

/-- The reset state meets the invariant. (Its empty program is the model's choice, log 3.) -/
def Obligations.ResetMeetsTheInvariant : Prop := Inv State.reset

/-- R18, R21, R22, R27: what the invariant says of the registers the host reads: HALTED exactly when CAUSE is not
0, CAUSE at most 8, reserved bits of STATUS 0, bit 31 of the PC 0, ERR_INSN nonzero only after an
error. -/
def Obligations.InvariantGivesTheStatusRules : Prop :=
  ∀ s : State, Inv s →
    (s.halted = true ↔ s.cause ≠ 0) ∧ s.cause.toNat ≤ 8 ∧
    (∀ i, (1 ≤ i ∧ i ≤ 3) ∨ 8 ≤ i → s.status.getLsbD i = false) ∧
    s.pc.getLsbD 31 = false ∧
    (s.errInsn ≠ 0 → 3 ≤ s.cause.toNat)
end

