-- ==== Sys2Proof/Laws/Encoding.lean ====
section
/-! SUPPORT. Fields of a packed word, the number tables, and the fixed-bit masks of rule R57 read as fields. -/

namespace Sys2Proof

/-! ### Fields -/

section
variable (op : BitVec 8) (ra rb : BitVec 3) (rsv : BitVec 18) (imm : Word)

@[simp] theorem fieldOp_packWord : fieldOp (packWord op ra rb rsv imm) = op := by
  simp only [fieldOp, packWord]
  apply BitVec.eq_of_getLsbD_eq
  grind

@[simp] theorem fieldRa_packWord : fieldRa (packWord op ra rb rsv imm) = ra := by
  simp only [fieldRa, packWord]
  apply BitVec.eq_of_getLsbD_eq
  grind

@[simp] theorem fieldRb_packWord : fieldRb (packWord op ra rb rsv imm) = rb := by
  simp only [fieldRb, packWord]
  apply BitVec.eq_of_getLsbD_eq
  grind

@[simp] theorem fieldRsv_packWord : fieldRsv (packWord op ra rb rsv imm) = rsv := by
  simp only [fieldRsv, packWord]
  apply BitVec.eq_of_getLsbD_eq
  grind

@[simp] theorem fieldImm_packWord : fieldImm (packWord op ra rb rsv imm) = imm := by
  simp only [fieldImm, packWord]
  apply BitVec.eq_of_getLsbD_eq
  grind

end

/-- A word is the packing of its fields. -/
theorem packWord_fields (w : InsnWord) :
    packWord (fieldOp w) (fieldRa w) (fieldRb w) (fieldRsv w) (fieldImm w) = w := by
  simp only [packWord, fieldOp, fieldRa, fieldRb, fieldRsv, fieldImm]
  apply BitVec.eq_of_getLsbD_eq
  intro i hi
  simp only [BitVec.getLsbD_append, BitVec.getLsbD_extractLsb']
  grind

/-- Two packed words are equal exactly when their fields are. -/
theorem packWord_inj {op op' : BitVec 8} {ra ra' rb rb' : BitVec 3} {rsv rsv' : BitVec 18}
    {imm imm' : Word} :
    packWord op ra rb rsv imm = packWord op' ra' rb' rsv' imm' ↔
      op = op' ∧ ra = ra' ∧ rb = rb' ∧ rsv = rsv' ∧ imm = imm' := by
  constructor
  · intro h
    have h1 := congrArg fieldOp h
    have h2 := congrArg fieldRa h
    have h3 := congrArg fieldRb h
    have h4 := congrArg fieldRsv h
    have h5 := congrArg fieldImm h
    simp only [fieldOp_packWord, fieldRa_packWord, fieldRb_packWord, fieldRsv_packWord,
      fieldImm_packWord] at h1 h2 h3 h4 h5
    exact ⟨h1, h2, h3, h4, h5⟩
  · rintro ⟨rfl, rfl, rfl, rfl, rfl⟩; rfl

theorem packWord_and (op op' : BitVec 8) (ra ra' rb rb' : BitVec 3) (rsv rsv' : BitVec 18)
    (imm imm' : Word) :
    packWord op ra rb rsv imm &&& packWord op' ra' rb' rsv' imm' =
      packWord (op &&& op') (ra &&& ra') (rb &&& rb') (rsv &&& rsv') (imm &&& imm') := by
  show (op ++ ra ++ rb ++ rsv ++ imm : BitVec (8 + 3 + 3 + 18 + 32)) &&&
    (op' ++ ra' ++ rb' ++ rsv' ++ imm' : BitVec (8 + 3 + 3 + 18 + 32)) = _
  rw [BitVec.and_append, BitVec.and_append, BitVec.and_append, BitVec.and_append]
  rfl

/-! ### Number tables -/

@[simp] theorem Opcode.ofCode_code (o : Opcode) : Opcode.ofCode o.code = some o := by
  cases o <;> rfl

theorem Opcode.code_of_ofCode {b : BitVec 8} {o : Opcode} (h : Opcode.ofCode b = some o) : o.code = b := by
  simpa using List.find?_some h

/-- The legal opcode numbers are 0x01 to 0x0C (R60, R61). -/
theorem Opcode.ofCode_eq_none (b : BitVec 8) :
    Opcode.ofCode b = none ↔ b.toNat = 0 ∨ 12 < b.toNat := by
  revert b; decide

@[simp] theorem Reg.ofNumber_number (r : Reg) : Reg.ofNumber r.number = some r := by
  cases r <;> rfl

theorem Reg.number_of_ofNumber {b : BitVec 3} {r : Reg} (h : Reg.ofNumber b = some r) : r.number = b := by
  simpa using List.find?_some h

/-- The register numbers are 0 to 3 (R59). -/
theorem Reg.ofNumber_eq_none (b : BitVec 3) : Reg.ofNumber b = none ↔ 3 < b.toNat := by
  revert b; decide

/-! ### Masks -/

theorem Opcode.pattern_eq (o : Opcode) : o.pattern = packWord o.code 0 0 0 0 := by
  cases o <;> decide

theorem and_mask_ri (w : InsnWord) :
    w &&& Format.ri.mask = packWord (fieldOp w) 0 (fieldRb w) (fieldRsv w) 0 := by
  have h : Format.ri.mask = packWord (BitVec.allOnes 8) 0 (BitVec.allOnes 3) (BitVec.allOnes 18) 0 := by decide
  conv_lhs => rw [h, ← packWord_fields w, packWord_and]
  simp only [BitVec.and_allOnes, BitVec.and_zero, BitVec.ofNat_eq_ofNat]

theorem and_mask_rr (w : InsnWord) :
    w &&& Format.rr.mask = packWord (fieldOp w) 0 0 (fieldRsv w) (fieldImm w) := by
  have h : Format.rr.mask = packWord (BitVec.allOnes 8) 0 0 (BitVec.allOnes 18) (BitVec.allOnes 32) := by decide
  conv_lhs => rw [h, ← packWord_fields w, packWord_and]
  simp only [BitVec.and_allOnes, BitVec.and_zero, BitVec.ofNat_eq_ofNat]

theorem and_mask_i (w : InsnWord) :
    w &&& Format.i.mask = packWord (fieldOp w) (fieldRa w) (fieldRb w) (fieldRsv w) 0 := by
  have h : Format.i.mask =
      packWord (BitVec.allOnes 8) (BitVec.allOnes 3) (BitVec.allOnes 3) (BitVec.allOnes 18) 0 := by decide
  conv_lhs => rw [h, ← packWord_fields w, packWord_and]
  simp only [BitVec.and_allOnes, BitVec.and_zero, BitVec.ofNat_eq_ofNat]

theorem and_mask_n (w : InsnWord) : w &&& Format.n.mask = w := by
  have h : Format.n.mask = BitVec.allOnes 64 := by decide
  rw [h, BitVec.and_allOnes]

/-- The must-be-zero fields of a format are zero (R57). -/
def UnusedFieldsZero (f : Format) (w : InsnWord) : Prop :=
  fieldRsv w = 0 ∧
    match f with
    | .ri => fieldRb w = 0
    | .rr => fieldImm w = 0
    | .i => fieldRa w = 0 ∧ fieldRb w = 0
    | .n => fieldRa w = 0 ∧ fieldRb w = 0 ∧ fieldImm w = 0

/-- Which fields the fixed bits of an opcode's format fix, and to what (R57). -/
theorem and_mask_eq_pattern (o : Opcode) (w : InsnWord) :
    w &&& o.format.mask = o.pattern ↔ fieldOp w = o.code ∧ UnusedFieldsZero o.format w := by
  rw [Opcode.pattern_eq]
  unfold UnusedFieldsZero
  cases o.format with
  | ri => rw [and_mask_ri, packWord_inj]; simp; tauto
  | rr => rw [and_mask_rr, packWord_inj]; simp
  | i => rw [and_mask_i, packWord_inj]; simp; tauto
  | n =>
    rw [and_mask_n]
    conv_lhs => rw [← packWord_fields w, packWord_inj]
    tauto

/-! ### What decoding can answer -/

/-- The decoder's three ways (R84): no such opcode; an unused field that is not zero; or the register checks. -/
theorem decode_cases (w : InsnWord) :
    (Opcode.ofCode (fieldOp w) = none ∧ decode w = .error .unknownOpcode) ∨
    (∃ o : Opcode, o.code = fieldOp w ∧ ¬UnusedFieldsZero o.format w ∧ decode w = .error .malformedOperands) ∨
    (∃ o : Opcode, o.code = fieldOp w ∧ UnusedFieldsZero o.format w ∧ decode w = decodeOperands o w) := by
  unfold decode
  split
  · exact .inl ⟨‹_›, rfl⟩
  · rename_i o ho
    have hc := Opcode.code_of_ofCode ho
    split
    · rename_i hm
      exact .inr (.inr ⟨o, hc, ((and_mask_eq_pattern o w).mp hm).2, rfl⟩)
    · rename_i hm
      exact .inr (.inl ⟨o, hc, fun h => hm ((and_mask_eq_pattern o w).mpr ⟨hc.symm, h⟩), rfl⟩)

/-- A word whose opcode field is an opcode's and whose unused fields are zero goes to the register checks. -/
theorem decode_of_unusedFieldsZero {o : Opcode} {w : InsnWord} (hc : fieldOp w = o.code)
    (hz : UnusedFieldsZero o.format w) : decode w = decodeOperands o w := by
  unfold decode
  rw [hc, Opcode.ofCode_code]
  simp only
  rw [if_pos ((and_mask_eq_pattern o w).mpr ⟨hc, hz⟩)]

theorem decodeRI_cases (k : Reg → Word → Instr) (w : InsnWord) :
    (∃ r, r.number = fieldRa w ∧ decodeRI k w = .insn (k r (fieldImm w))) ∨
    (3 < (fieldRa w).toNat ∧ decodeRI k w = .error .unknownRegister) := by
  unfold decodeRI
  split
  · exact .inr ⟨(Reg.ofNumber_eq_none _).mp ‹_›, rfl⟩
  · exact .inl ⟨_, Reg.number_of_ofNumber ‹_›, rfl⟩

theorem decodeRR_cases (k : Reg → Reg → Instr) (w : InsnWord) :
    (∃ r q, r.number = fieldRa w ∧ q.number = fieldRb w ∧ decodeRR k w = .insn (k r q)) ∨
    ((3 < (fieldRa w).toNat ∨ 3 < (fieldRb w).toNat) ∧ decodeRR k w = .error .unknownRegister) := by
  unfold decodeRR
  cases ha : Reg.ofNumber (fieldRa w) with
  | none => exact .inr ⟨.inl ((Reg.ofNumber_eq_none _).mp ha), rfl⟩
  | some r =>
    cases hb : Reg.ofNumber (fieldRb w) with
    | none => exact .inr ⟨.inr ((Reg.ofNumber_eq_none _).mp hb), rfl⟩
    | some q => exact .inl ⟨r, q, Reg.number_of_ofNumber ha, Reg.number_of_ofNumber hb, rfl⟩

theorem Reg.number_le (r : Reg) : r.number.toNat ≤ 3 := by
  cases r <;> decide

/-- Every instruction's word has its opcode in the opcode field. -/
@[simp] theorem fieldOp_encode (i : Instr) : fieldOp (encode i) = i.opcode.code := by
  cases i <;> simp [encode, encodeRI, encodeRR, encodeI, Instr.opcode]

end Sys2Proof
end

