-- ==== Sys2Proof/Laws/HostPort.lean ====
section
/-! SUPPORT. What each action of the host does, by the level of `rst`. -/

namespace Sys2Proof.Machine

/-- With `rst` 0 a release changes nothing (R28; log 17). -/
theorem hostReleaseReset_of_low {s : State} (h : s.rst = false) : hostReleaseReset s = .next s := by
  simp only [hostReleaseReset, h, if_true]

/-- A release from 1 gives the reset values and samples N (R132, R133). -/
theorem hostReleaseReset_of_high {s : State} (h : s.rst = true) (hn : uint s.progLenPin ≤ Config.imemDepth) :
    hostReleaseReset s = .next { s.resetEdge with rst := false, progLen := s.progLenPin } := by
  simp only [hostReleaseReset, h, Bool.true_eq_false, if_false, if_neg (Nat.not_lt.mpr hn)]

/-- A release from 1 with `prog_len` beyond the store is refused (I7). -/
theorem hostReleaseReset_of_beyond {s : State} (h : s.rst = true) (hn : Config.imemDepth < uint s.progLenPin) :
    hostReleaseReset s = .refused .progLenBeyondStore := by
  simp only [hostReleaseReset, h, Bool.true_eq_false, if_false, if_pos hn]

/-- Everything a release that answers a state can have done. -/
theorem hostReleaseReset_cases {s t : State} (h : hostReleaseReset s = .next t) :
    (s.rst = false ∧ t = s) ∨
    (s.rst = true ∧ uint s.progLenPin ≤ Config.imemDepth ∧
      t = { s.resetEdge with rst := false, progLen := s.progLenPin }) := by
  cases hr : s.rst with
  | false => rw [hostReleaseReset_of_low hr] at h; cases h; exact .inl ⟨rfl, rfl⟩
  | true =>
    by_cases hn : uint s.progLenPin ≤ Config.imemDepth
    · rw [hostReleaseReset_of_high hr hn] at h; cases h; exact .inr ⟨rfl, hn, rfl⟩
    · rw [hostReleaseReset_of_beyond hr (Nat.lt_of_not_le hn)] at h; cases h

/-- With `rst` 0 a write of IMEM is refused (R138). -/
theorem hostLoadWord_of_low {s : State} (h : s.rst = false) (i : Nat) (w : InsnWord) :
    hostLoadWord i w s = .refused .hostWriteDuringRun := by
  simp only [hostLoadWord, h, if_true]

/-- Under reset a write of IMEM below `IMEM_DEPTH` sets that word (R135). -/
theorem hostLoadWord_of_high {s : State} (h : s.rst = true) {i : Nat} (hi : i < Config.imemDepth) (w : InsnWord) :
    hostLoadWord i w s = .next { s with imem := putCell i w s.imem } := by
  simp only [hostLoadWord, h, Bool.true_eq_false, if_false, if_neg (Nat.not_le.mpr hi)]

/-- Under reset a write of IMEM at or beyond `IMEM_DEPTH` is refused (R46). -/
theorem hostLoadWord_of_beyond {s : State} (h : s.rst = true) {i : Nat} (hi : Config.imemDepth ≤ i) (w : InsnWord) :
    hostLoadWord i w s = .refused .imemIndexBeyondStore := by
  simp only [hostLoadWord, h, Bool.true_eq_false, if_false, if_pos hi]

/-- With `rst` 0 a change of `prog_len` is refused (R138). -/
theorem hostDriveProgLen_of_low {s : State} (h : s.rst = false) (n : Word) :
    hostDriveProgLen n s = .refused .hostWriteDuringRun := by
  simp only [hostDriveProgLen, h, if_true]

/-- Under reset the host sets the level of `prog_len` (R135). -/
theorem hostDriveProgLen_of_high {s : State} (h : s.rst = true) (n : Word) :
    hostDriveProgLen n s = .next { s with progLenPin := n } := by
  simp only [hostDriveProgLen, h, Bool.true_eq_false, if_false]

end Sys2Proof.Machine
end

