-- ==== Sys2Proof/Laws/Memory.lean ====
section
/-! SUPPORT. Cells and data memory: read after write, and every operation keeps the canonical form. The
read-after-write laws need no canonical form. -/

namespace Sys2Proof.Machine

variable {α : Type}

theorem cellAt_putCell (k j : Nat) (v : α) (m : List (Nat × α)) :
    cellAt j (putCell k v m) = if j = k then some v else cellAt j m := by
  induction m with
  | nil => simp [putCell, cellAt, eq_comm]
  | cons c rest ih => grind [putCell, cellAt]

theorem cellAt_dropCell (k j : Nat) (m : List (Nat × α)) :
    cellAt j (dropCell k m) = if j = k then none else cellAt j m := by
  induction m with
  | nil => simp [dropCell, cellAt]
  | cons c rest ih => grind [dropCell, cellAt]

/-- A write gives its word at its address and leaves every other address alone (R43). -/
theorem Memory.read_write (m : Memory) (x y : DmemAddr) (v : Word) :
    (m.write x v).read y = if y = x then v else m.read y := by
  simp only [Memory.write, Memory.read]
  split
  · rename_i hv
    rw [cellAt_dropCell]
    by_cases hyx : y = x
    · simp [hyx, hv]
    · simp [hyx, Fin.ext_iff.not.mp hyx]
  · rw [cellAt_putCell]
    by_cases hyx : y = x
    · simp [hyx]
    · simp [hyx, Fin.ext_iff.not.mp hyx]

@[simp] theorem Memory.read_write_same (m : Memory) (x : DmemAddr) (v : Word) :
    (m.write x v).read x = v := by
  simp [Memory.read_write]

@[simp] theorem Memory.read_write_of_ne (m : Memory) (x y : DmemAddr) (v : Word) (h : y ≠ x) :
    (m.write x v).read y = m.read y := by
  simp [Memory.read_write, h]

/-! ### The canonical form -/

theorem risingFrom_mono {lo hi : Nat} (h : lo ≤ hi) {m : List (Nat × α)} (hm : risingFrom hi m = true) :
    risingFrom lo m = true := by
  cases m with
  | nil => rfl
  | cons c rest => simp only [risingFrom, Bool.and_eq_true, decide_eq_true_eq] at hm ⊢; exact ⟨by omega, hm.2⟩

theorem risingFrom_putCell {lo k : Nat} (v : α) {m : List (Nat × α)} (hk : lo ≤ k)
    (hm : risingFrom lo m = true) : risingFrom lo (putCell k v m) = true := by
  induction m generalizing lo with
  | nil => simp [putCell, risingFrom, hk]
  | cons c rest ih =>
    obtain ⟨i, w⟩ := c
    simp only [risingFrom, Bool.and_eq_true, decide_eq_true_eq] at hm
    simp only [putCell]
    split
    · simp only [risingFrom, Bool.and_eq_true, decide_eq_true_eq]; exact ⟨hk, by omega, hm.2⟩
    · split
      · rename_i h; subst h
        simp only [risingFrom, Bool.and_eq_true, decide_eq_true_eq]; exact hm
      · simp only [risingFrom, Bool.and_eq_true, decide_eq_true_eq]
        exact ⟨hm.1, ih (by omega) hm.2⟩

theorem risingFrom_dropCell {lo : Nat} (k : Nat) {m : List (Nat × α)} (hm : risingFrom lo m = true) :
    risingFrom lo (dropCell k m) = true := by
  induction m generalizing lo with
  | nil => rfl
  | cons c rest ih =>
    obtain ⟨i, w⟩ := c
    simp only [risingFrom, Bool.and_eq_true, decide_eq_true_eq] at hm
    have h' := ih hm.2
    simp only [dropCell, List.filter_cons] at h' ⊢
    split
    · simp only [risingFrom, Bool.and_eq_true, decide_eq_true_eq]; exact ⟨hm.1, h'⟩
    · exact risingFrom_mono (by omega) h'

theorem mem_putCell {k : Nat} {v : α} {m : List (Nat × α)} {x : Nat × α} (h : x ∈ putCell k v m) :
    x = (k, v) ∨ x ∈ m := by
  induction m with
  | nil => simpa [putCell] using h
  | cons c rest ih =>
    obtain ⟨i, w⟩ := c
    simp only [putCell] at h
    split at h
    · simpa using h
    · split at h
      · rcases List.mem_cons.mp h with h | h
        · exact .inl h
        · exact .inr (List.mem_cons_of_mem _ h)
      · rcases List.mem_cons.mp h with h | h
        · exact .inr (h ▸ List.mem_cons_self)
        · exact (ih h).imp_right (List.mem_cons_of_mem _)

theorem rising_putCell (k : Nat) (v : α) {m : List (Nat × α)} (hm : rising m = true) :
    rising (putCell k v m) = true := risingFrom_putCell v (Nat.zero_le k) hm

theorem rising_dropCell (k : Nat) {m : List (Nat × α)} (hm : rising m = true) :
    rising (dropCell k m) = true := risingFrom_dropCell k hm

theorem Memory.wf_iff (m : Memory) :
    m.wf = true ↔ rising m = true ∧ ∀ x ∈ m, x.1 < Config.dmemWords ∧ x.2 ≠ unlistedWord := by
  simp [Memory.wf, List.all_eq_true]

/-- Reset memory has the canonical form. -/
@[simp] theorem Memory.wf_nil : Memory.wf [] = true := rfl

/-- A write keeps the canonical form. -/
theorem Memory.wf_write {m : Memory} (hm : m.wf = true) (x : DmemAddr) (v : Word) :
    (m.write x v).wf = true := by
  rw [Memory.wf_iff] at hm ⊢
  simp only [Memory.write]
  split
  · exact ⟨rising_dropCell _ hm.1, fun y hy => hm.2 y (List.mem_of_mem_filter hy)⟩
  · rename_i hv
    refine ⟨rising_putCell _ _ hm.1, fun y hy => ?_⟩
    rcases mem_putCell hy with rfl | hy
    · exact ⟨x.isLt, hv⟩
    · exact hm.2 y hy

end Sys2Proof.Machine
end

