-- ==== Sys2Proof/Laws/State.lean ====
section
/-! SUPPORT. One lemma per field per update of the state. -/

namespace Sys2Proof.Machine

/-! ### State.memWrite -/

@[simp] theorem State.memWrite_a (s : State) (x : DmemAddr) (v : Word) : (s.memWrite x v).a = s.a := rfl
@[simp] theorem State.memWrite_b (s : State) (x : DmemAddr) (v : Word) : (s.memWrite x v).b = s.b := rfl
@[simp] theorem State.memWrite_c (s : State) (x : DmemAddr) (v : Word) : (s.memWrite x v).c = s.c := rfl
@[simp] theorem State.memWrite_d (s : State) (x : DmemAddr) (v : Word) : (s.memWrite x v).d = s.d := rfl
@[simp] theorem State.memWrite_pc (s : State) (x : DmemAddr) (v : Word) : (s.memWrite x v).pc = s.pc := rfl
@[simp] theorem State.memWrite_eq (s : State) (x : DmemAddr) (v : Word) : (s.memWrite x v).eq = s.eq := rfl
@[simp] theorem State.memWrite_dmem (s : State) (x : DmemAddr) (v : Word) : (s.memWrite x v).dmem = s.dmem.write x v := rfl
@[simp] theorem State.memWrite_imem (s : State) (x : DmemAddr) (v : Word) : (s.memWrite x v).imem = s.imem := rfl
@[simp] theorem State.memWrite_progLen (s : State) (x : DmemAddr) (v : Word) : (s.memWrite x v).progLen = s.progLen := rfl
@[simp] theorem State.memWrite_status (s : State) (x : DmemAddr) (v : Word) : (s.memWrite x v).status = s.status := rfl
@[simp] theorem State.memWrite_errInsn (s : State) (x : DmemAddr) (v : Word) : (s.memWrite x v).errInsn = s.errInsn := rfl
@[simp] theorem State.memWrite_traceValid (s : State) (x : DmemAddr) (v : Word) : (s.memWrite x v).traceValid = s.traceValid := rfl
@[simp] theorem State.memWrite_rst (s : State) (x : DmemAddr) (v : Word) : (s.memWrite x v).rst = s.rst := rfl
@[simp] theorem State.memWrite_progLenPin (s : State) (x : DmemAddr) (v : Word) : (s.memWrite x v).progLenPin = s.progLenPin := rfl

/-! ### State.setEq -/

@[simp] theorem State.setEq_a (s : State) (v : Bool) : (s.setEq v).a = s.a := rfl
@[simp] theorem State.setEq_b (s : State) (v : Bool) : (s.setEq v).b = s.b := rfl
@[simp] theorem State.setEq_c (s : State) (v : Bool) : (s.setEq v).c = s.c := rfl
@[simp] theorem State.setEq_d (s : State) (v : Bool) : (s.setEq v).d = s.d := rfl
@[simp] theorem State.setEq_pc (s : State) (v : Bool) : (s.setEq v).pc = s.pc := rfl
@[simp] theorem State.setEq_eq (s : State) (v : Bool) : (s.setEq v).eq = v := rfl
@[simp] theorem State.setEq_dmem (s : State) (v : Bool) : (s.setEq v).dmem = s.dmem := rfl
@[simp] theorem State.setEq_imem (s : State) (v : Bool) : (s.setEq v).imem = s.imem := rfl
@[simp] theorem State.setEq_progLen (s : State) (v : Bool) : (s.setEq v).progLen = s.progLen := rfl
@[simp] theorem State.setEq_status (s : State) (v : Bool) : (s.setEq v).status = s.status := rfl
@[simp] theorem State.setEq_errInsn (s : State) (v : Bool) : (s.setEq v).errInsn = s.errInsn := rfl
@[simp] theorem State.setEq_traceValid (s : State) (v : Bool) : (s.setEq v).traceValid = s.traceValid := rfl
@[simp] theorem State.setEq_rst (s : State) (v : Bool) : (s.setEq v).rst = s.rst := rfl
@[simp] theorem State.setEq_progLenPin (s : State) (v : Bool) : (s.setEq v).progLenPin = s.progLenPin := rfl

/-! ### State.continueAt -/

@[simp] theorem State.continueAt_a (s : State) (n : Word) : (s.continueAt n).a = s.a := rfl
@[simp] theorem State.continueAt_b (s : State) (n : Word) : (s.continueAt n).b = s.b := rfl
@[simp] theorem State.continueAt_c (s : State) (n : Word) : (s.continueAt n).c = s.c := rfl
@[simp] theorem State.continueAt_d (s : State) (n : Word) : (s.continueAt n).d = s.d := rfl
@[simp] theorem State.continueAt_pc (s : State) (n : Word) : (s.continueAt n).pc = n := rfl
@[simp] theorem State.continueAt_eq (s : State) (n : Word) : (s.continueAt n).eq = s.eq := rfl
@[simp] theorem State.continueAt_dmem (s : State) (n : Word) : (s.continueAt n).dmem = s.dmem := rfl
@[simp] theorem State.continueAt_imem (s : State) (n : Word) : (s.continueAt n).imem = s.imem := rfl
@[simp] theorem State.continueAt_progLen (s : State) (n : Word) : (s.continueAt n).progLen = s.progLen := rfl
@[simp] theorem State.continueAt_status (s : State) (n : Word) : (s.continueAt n).status = s.status := rfl
@[simp] theorem State.continueAt_errInsn (s : State) (n : Word) : (s.continueAt n).errInsn = s.errInsn := rfl
@[simp] theorem State.continueAt_traceValid (s : State) (n : Word) : (s.continueAt n).traceValid = true := rfl
@[simp] theorem State.continueAt_rst (s : State) (n : Word) : (s.continueAt n).rst = s.rst := rfl
@[simp] theorem State.continueAt_progLenPin (s : State) (n : Word) : (s.continueAt n).progLenPin = s.progLenPin := rfl

/-! ### State.haltEntry -/

@[simp] theorem State.haltEntry_a (s : State) (k : Cause) (w : InsnWord) : (s.haltEntry k w).a = s.a := rfl
@[simp] theorem State.haltEntry_b (s : State) (k : Cause) (w : InsnWord) : (s.haltEntry k w).b = s.b := rfl
@[simp] theorem State.haltEntry_c (s : State) (k : Cause) (w : InsnWord) : (s.haltEntry k w).c = s.c := rfl
@[simp] theorem State.haltEntry_d (s : State) (k : Cause) (w : InsnWord) : (s.haltEntry k w).d = s.d := rfl
@[simp] theorem State.haltEntry_pc (s : State) (k : Cause) (w : InsnWord) : (s.haltEntry k w).pc = s.pc := rfl
@[simp] theorem State.haltEntry_eq (s : State) (k : Cause) (w : InsnWord) : (s.haltEntry k w).eq = s.eq := rfl
@[simp] theorem State.haltEntry_dmem (s : State) (k : Cause) (w : InsnWord) : (s.haltEntry k w).dmem = s.dmem := rfl
@[simp] theorem State.haltEntry_imem (s : State) (k : Cause) (w : InsnWord) : (s.haltEntry k w).imem = s.imem := rfl
@[simp] theorem State.haltEntry_progLen (s : State) (k : Cause) (w : InsnWord) : (s.haltEntry k w).progLen = s.progLen := rfl
@[simp] theorem State.haltEntry_status (s : State) (k : Cause) (w : InsnWord) : (s.haltEntry k w).status = haltedStatus k := rfl
@[simp] theorem State.haltEntry_errInsn (s : State) (k : Cause) (w : InsnWord) : (s.haltEntry k w).errInsn = w := rfl
@[simp] theorem State.haltEntry_traceValid (s : State) (k : Cause) (w : InsnWord) : (s.haltEntry k w).traceValid = false := rfl
@[simp] theorem State.haltEntry_rst (s : State) (k : Cause) (w : InsnWord) : (s.haltEntry k w).rst = s.rst := rfl
@[simp] theorem State.haltEntry_progLenPin (s : State) (k : Cause) (w : InsnWord) : (s.haltEntry k w).progLenPin = s.progLenPin := rfl

/-! ### State.raise -/

@[simp] theorem State.raise_a (s : State) (k : ErrorKind) (w : InsnWord) : (s.raise k w).a = s.a := rfl
@[simp] theorem State.raise_b (s : State) (k : ErrorKind) (w : InsnWord) : (s.raise k w).b = s.b := rfl
@[simp] theorem State.raise_c (s : State) (k : ErrorKind) (w : InsnWord) : (s.raise k w).c = s.c := rfl
@[simp] theorem State.raise_d (s : State) (k : ErrorKind) (w : InsnWord) : (s.raise k w).d = s.d := rfl
@[simp] theorem State.raise_pc (s : State) (k : ErrorKind) (w : InsnWord) : (s.raise k w).pc = s.pc := rfl
@[simp] theorem State.raise_eq (s : State) (k : ErrorKind) (w : InsnWord) : (s.raise k w).eq = s.eq := rfl
@[simp] theorem State.raise_dmem (s : State) (k : ErrorKind) (w : InsnWord) : (s.raise k w).dmem = s.dmem := rfl
@[simp] theorem State.raise_imem (s : State) (k : ErrorKind) (w : InsnWord) : (s.raise k w).imem = s.imem := rfl
@[simp] theorem State.raise_progLen (s : State) (k : ErrorKind) (w : InsnWord) : (s.raise k w).progLen = s.progLen := rfl
@[simp] theorem State.raise_status (s : State) (k : ErrorKind) (w : InsnWord) : (s.raise k w).status = haltedStatus (.runtimeError k) := rfl
@[simp] theorem State.raise_errInsn (s : State) (k : ErrorKind) (w : InsnWord) : (s.raise k w).errInsn = w := rfl
@[simp] theorem State.raise_traceValid (s : State) (k : ErrorKind) (w : InsnWord) : (s.raise k w).traceValid = false := rfl
@[simp] theorem State.raise_rst (s : State) (k : ErrorKind) (w : InsnWord) : (s.raise k w).rst = s.rst := rfl
@[simp] theorem State.raise_progLenPin (s : State) (k : ErrorKind) (w : InsnWord) : (s.raise k w).progLenPin = s.progLenPin := rfl

/-! ### State.stopNormal -/

@[simp] theorem State.stopNormal_a (s : State)  : (s.stopNormal).a = s.a := rfl
@[simp] theorem State.stopNormal_b (s : State)  : (s.stopNormal).b = s.b := rfl
@[simp] theorem State.stopNormal_c (s : State)  : (s.stopNormal).c = s.c := rfl
@[simp] theorem State.stopNormal_d (s : State)  : (s.stopNormal).d = s.d := rfl
@[simp] theorem State.stopNormal_pc (s : State)  : (s.stopNormal).pc = s.pc := rfl
@[simp] theorem State.stopNormal_eq (s : State)  : (s.stopNormal).eq = s.eq := rfl
@[simp] theorem State.stopNormal_dmem (s : State)  : (s.stopNormal).dmem = s.dmem := rfl
@[simp] theorem State.stopNormal_imem (s : State)  : (s.stopNormal).imem = s.imem := rfl
@[simp] theorem State.stopNormal_progLen (s : State)  : (s.stopNormal).progLen = s.progLen := rfl
@[simp] theorem State.stopNormal_status (s : State)  : (s.stopNormal).status = haltedStatus .normalHalt := rfl
@[simp] theorem State.stopNormal_errInsn (s : State)  : (s.stopNormal).errInsn = s.errInsn := rfl
@[simp] theorem State.stopNormal_traceValid (s : State)  : (s.stopNormal).traceValid = false := rfl
@[simp] theorem State.stopNormal_rst (s : State)  : (s.stopNormal).rst = s.rst := rfl
@[simp] theorem State.stopNormal_progLenPin (s : State)  : (s.stopNormal).progLenPin = s.progLenPin := rfl

/-! ### State.stopEndOfProgram -/

@[simp] theorem State.stopEndOfProgram_a (s : State)  : (s.stopEndOfProgram).a = s.a := rfl
@[simp] theorem State.stopEndOfProgram_b (s : State)  : (s.stopEndOfProgram).b = s.b := rfl
@[simp] theorem State.stopEndOfProgram_c (s : State)  : (s.stopEndOfProgram).c = s.c := rfl
@[simp] theorem State.stopEndOfProgram_d (s : State)  : (s.stopEndOfProgram).d = s.d := rfl
@[simp] theorem State.stopEndOfProgram_pc (s : State)  : (s.stopEndOfProgram).pc = s.pc := rfl
@[simp] theorem State.stopEndOfProgram_eq (s : State)  : (s.stopEndOfProgram).eq = s.eq := rfl
@[simp] theorem State.stopEndOfProgram_dmem (s : State)  : (s.stopEndOfProgram).dmem = s.dmem := rfl
@[simp] theorem State.stopEndOfProgram_imem (s : State)  : (s.stopEndOfProgram).imem = s.imem := rfl
@[simp] theorem State.stopEndOfProgram_progLen (s : State)  : (s.stopEndOfProgram).progLen = s.progLen := rfl
@[simp] theorem State.stopEndOfProgram_status (s : State)  : (s.stopEndOfProgram).status = haltedStatus .endOfProgram := rfl
@[simp] theorem State.stopEndOfProgram_errInsn (s : State)  : (s.stopEndOfProgram).errInsn = s.errInsn := rfl
@[simp] theorem State.stopEndOfProgram_traceValid (s : State)  : (s.stopEndOfProgram).traceValid = false := rfl
@[simp] theorem State.stopEndOfProgram_rst (s : State)  : (s.stopEndOfProgram).rst = s.rst := rfl
@[simp] theorem State.stopEndOfProgram_progLenPin (s : State)  : (s.stopEndOfProgram).progLenPin = s.progLenPin := rfl

/-! ### State.resetEdge -/

@[simp] theorem State.resetEdge_a (s : State)  : (s.resetEdge).a = 0 := rfl
@[simp] theorem State.resetEdge_b (s : State)  : (s.resetEdge).b = 0 := rfl
@[simp] theorem State.resetEdge_c (s : State)  : (s.resetEdge).c = 0 := rfl
@[simp] theorem State.resetEdge_d (s : State)  : (s.resetEdge).d = 0 := rfl
@[simp] theorem State.resetEdge_pc (s : State)  : (s.resetEdge).pc = 0 := rfl
@[simp] theorem State.resetEdge_eq (s : State)  : (s.resetEdge).eq = false := rfl
@[simp] theorem State.resetEdge_dmem (s : State)  : (s.resetEdge).dmem = [] := rfl
@[simp] theorem State.resetEdge_imem (s : State)  : (s.resetEdge).imem = s.imem := rfl
@[simp] theorem State.resetEdge_progLen (s : State)  : (s.resetEdge).progLen = s.progLen := rfl
@[simp] theorem State.resetEdge_status (s : State)  : (s.resetEdge).status = 0 := rfl
@[simp] theorem State.resetEdge_errInsn (s : State)  : (s.resetEdge).errInsn = 0 := rfl
@[simp] theorem State.resetEdge_traceValid (s : State)  : (s.resetEdge).traceValid = false := rfl
@[simp] theorem State.resetEdge_rst (s : State)  : (s.resetEdge).rst = s.rst := rfl
@[simp] theorem State.resetEdge_progLenPin (s : State)  : (s.resetEdge).progLenPin = s.progLenPin := rfl

/-! ### State.setReg: every field that is no register -/

@[simp] theorem State.setReg_pc (s : State) (r : Reg) (v : Word) : (s.setReg r v).pc = s.pc := by
  cases r <;> rfl
@[simp] theorem State.setReg_eq (s : State) (r : Reg) (v : Word) : (s.setReg r v).eq = s.eq := by
  cases r <;> rfl
@[simp] theorem State.setReg_dmem (s : State) (r : Reg) (v : Word) : (s.setReg r v).dmem = s.dmem := by
  cases r <;> rfl
@[simp] theorem State.setReg_imem (s : State) (r : Reg) (v : Word) : (s.setReg r v).imem = s.imem := by
  cases r <;> rfl
@[simp] theorem State.setReg_progLen (s : State) (r : Reg) (v : Word) : (s.setReg r v).progLen = s.progLen := by
  cases r <;> rfl
@[simp] theorem State.setReg_status (s : State) (r : Reg) (v : Word) : (s.setReg r v).status = s.status := by
  cases r <;> rfl
@[simp] theorem State.setReg_errInsn (s : State) (r : Reg) (v : Word) : (s.setReg r v).errInsn = s.errInsn := by
  cases r <;> rfl
@[simp] theorem State.setReg_traceValid (s : State) (r : Reg) (v : Word) : (s.setReg r v).traceValid = s.traceValid := by
  cases r <;> rfl
@[simp] theorem State.setReg_rst (s : State) (r : Reg) (v : Word) : (s.setReg r v).rst = s.rst := by
  cases r <;> rfl
@[simp] theorem State.setReg_progLenPin (s : State) (r : Reg) (v : Word) : (s.setReg r v).progLenPin = s.progLenPin := by
  cases r <;> rfl

/-! ### Registers, data memory and program store through each update -/

theorem State.reg_setReg (s : State) (r q : Reg) (v : Word) :
    (s.setReg r v).reg q = if q = r then v else s.reg q := by
  cases r <;> cases q <;> rfl

@[simp] theorem State.reg_setReg_same (s : State) (r : Reg) (v : Word) : (s.setReg r v).reg r = v := by
  cases r <;> rfl

@[simp] theorem State.reg_setReg_of_ne (s : State) (r q : Reg) (v : Word) (h : q ≠ r) :
    (s.setReg r v).reg q = s.reg q := by
  rw [State.reg_setReg, if_neg h]

@[simp] theorem State.memWrite_reg (s : State) (x : DmemAddr) (v : Word) (q : Reg) : (s.memWrite x v).reg q = s.reg q := by
  cases q <;> rfl
@[simp] theorem State.setEq_reg (s : State) (v : Bool) (q : Reg) : (s.setEq v).reg q = s.reg q := by
  cases q <;> rfl
@[simp] theorem State.continueAt_reg (s : State) (n : Word) (q : Reg) : (s.continueAt n).reg q = s.reg q := by
  cases q <;> rfl
@[simp] theorem State.haltEntry_reg (s : State) (k : Cause) (w : InsnWord) (q : Reg) : (s.haltEntry k w).reg q = s.reg q := by
  cases q <;> rfl
@[simp] theorem State.raise_reg (s : State) (k : ErrorKind) (w : InsnWord) (q : Reg) : (s.raise k w).reg q = s.reg q := by
  cases q <;> rfl
@[simp] theorem State.stopNormal_reg (s : State)  (q : Reg) : (s.stopNormal).reg q = s.reg q := by
  cases q <;> rfl
@[simp] theorem State.stopEndOfProgram_reg (s : State)  (q : Reg) : (s.stopEndOfProgram).reg q = s.reg q := by
  cases q <;> rfl
@[simp] theorem State.resetEdge_reg (s : State) (q : Reg) : s.resetEdge.reg q = 0 := by
  cases q <;> rfl

@[simp] theorem State.setEq_memRead (s : State) (v : Bool) (y : DmemAddr) : (s.setEq v).memRead y = s.memRead y := rfl
@[simp] theorem State.continueAt_memRead (s : State) (n : Word) (y : DmemAddr) : (s.continueAt n).memRead y = s.memRead y := rfl
@[simp] theorem State.haltEntry_memRead (s : State) (k : Cause) (w : InsnWord) (y : DmemAddr) : (s.haltEntry k w).memRead y = s.memRead y := rfl
@[simp] theorem State.raise_memRead (s : State) (k : ErrorKind) (w : InsnWord) (y : DmemAddr) : (s.raise k w).memRead y = s.memRead y := rfl
@[simp] theorem State.stopNormal_memRead (s : State)  (y : DmemAddr) : (s.stopNormal).memRead y = s.memRead y := rfl
@[simp] theorem State.stopEndOfProgram_memRead (s : State)  (y : DmemAddr) : (s.stopEndOfProgram).memRead y = s.memRead y := rfl
@[simp] theorem State.setReg_memRead (s : State) (r : Reg) (v : Word) (y : DmemAddr) :
    (s.setReg r v).memRead y = s.memRead y := by
  cases r <;> rfl
@[simp] theorem State.memWrite_memRead (s : State) (x y : DmemAddr) (v : Word) :
    (s.memWrite x v).memRead y = (s.dmem.write x v).read y := rfl

/-! ### The ALU's write -/

@[simp] theorem State.aluWrite_pc (s : State) (op : Int → Int → Int) (rd rs : Reg) :
    (s.aluWrite op rd rs).pc = s.pc + 1 := by
  cases rd <;> rfl
@[simp] theorem State.aluWrite_eq (s : State) (op : Int → Int → Int) (rd rs : Reg) :
    (s.aluWrite op rd rs).eq = s.eq := by
  cases rd <;> rfl
@[simp] theorem State.aluWrite_dmem (s : State) (op : Int → Int → Int) (rd rs : Reg) :
    (s.aluWrite op rd rs).dmem = s.dmem := by
  cases rd <;> rfl
@[simp] theorem State.aluWrite_imem (s : State) (op : Int → Int → Int) (rd rs : Reg) :
    (s.aluWrite op rd rs).imem = s.imem := by
  cases rd <;> rfl
@[simp] theorem State.aluWrite_progLen (s : State) (op : Int → Int → Int) (rd rs : Reg) :
    (s.aluWrite op rd rs).progLen = s.progLen := by
  cases rd <;> rfl
@[simp] theorem State.aluWrite_status (s : State) (op : Int → Int → Int) (rd rs : Reg) :
    (s.aluWrite op rd rs).status = s.status := by
  cases rd <;> rfl
@[simp] theorem State.aluWrite_errInsn (s : State) (op : Int → Int → Int) (rd rs : Reg) :
    (s.aluWrite op rd rs).errInsn = s.errInsn := by
  cases rd <;> rfl
@[simp] theorem State.aluWrite_traceValid (s : State) (op : Int → Int → Int) (rd rs : Reg) :
    (s.aluWrite op rd rs).traceValid = true := by
  cases rd <;> rfl
@[simp] theorem State.aluWrite_rst (s : State) (op : Int → Int → Int) (rd rs : Reg) :
    (s.aluWrite op rd rs).rst = s.rst := by
  cases rd <;> rfl
@[simp] theorem State.aluWrite_progLenPin (s : State) (op : Int → Int → Int) (rd rs : Reg) :
    (s.aluWrite op rd rs).progLenPin = s.progLenPin := by
  cases rd <;> rfl

theorem State.aluWrite_reg (s : State) (op : Int → Int → Int) (rd rs q : Reg) :
    (s.aluWrite op rd rs).reg q =
      if q = rd then wrap32 (op (sint (s.reg rd)) (sint (s.reg rs))) else s.reg q := by
  cases rd <;> cases q <;> rfl

@[simp] theorem State.aluWrite_memRead (s : State) (op : Int → Int → Int) (rd rs : Reg) (y : DmemAddr) :
    (s.aluWrite op rd rs).memRead y = s.memRead y := by
  cases rd <;> rfl

end Sys2Proof.Machine
end

