-- ==== Sys2Proof/Laws/Ops.lean ====
section
/-! SUPPORT. One lemma per shared operation, saying once everything it can do. -/

namespace Sys2Proof.Machine

/-! ### The operand checks -/

theorem sint_range (v : Word) : -(2 ^ 31) ≤ sint v ∧ sint v ≤ 2 ^ 31 - 1 := by
  have h1 := BitVec.le_toInt v
  have h2 := BitVec.toInt_lt (x := v)
  simp only [sint]; omega

/-- The signed reading of a word from its unsigned one. -/
theorem sint_eq (v : Word) :
    sint v = if uint v < 2 ^ 31 then (uint v : Int) else (uint v : Int) - 2 ^ 32 := by
  have e : sint v = if 2 * uint v < 2 ^ 32 then (uint v : Int) else (uint v : Int) - (2 ^ 32 : Nat) :=
    BitVec.toInt_eq_toNat_cond v
  rw [e]
  by_cases h : uint v < 2 ^ 31
  · rw [if_pos h, if_pos (by omega)]
  · rw [if_neg h, if_neg (by omega)]; rfl

theorem uint_of_sint_nonneg {v : Word} (h : 0 ≤ sint v) : (uint v : Int) = sint v ∧ uint v < 2 ^ 31 := by
  have := sint_eq v
  have : uint v < 2 ^ 32 := v.isLt
  split at * <;> omega

theorem dmemAddr?_eq_some {imm : Word} {a : DmemAddr} : dmemAddr? imm = some a ↔ sint imm = (a.val : Int) := by
  have ha := a.isLt
  simp only [Config.dmemWords] at ha
  unfold dmemAddr?
  split
  · simp only [Option.some.injEq, Fin.ext_iff]; omega
  · simp only [reduceCtorEq, false_iff]; omega

theorem dmemAddr?_eq_none {imm : Word} : dmemAddr? imm = none ↔ sint imm < 0 ∨ 255 < sint imm := by
  unfold dmemAddr?
  split
  · simp only [reduceCtorEq, false_iff]; omega
  · simp only [true_iff]; omega

theorem jumpTarget?_of_nonneg {imm : Word} (h : 0 ≤ sint imm) : jumpTarget? imm = some imm := by
  simp only [jumpTarget?]; split <;> first | rfl | omega

theorem jumpTarget?_of_neg {imm : Word} (h : sint imm < 0) : jumpTarget? imm = none := by
  simp [jumpTarget?, h]

/-! ### A taken jump -/

theorem State.takeJump_of_nonneg (s : State) {target : Word} (h : 0 ≤ sint target) (w : InsnWord) :
    s.takeJump target w = s.continueAt target := by
  simp [State.takeJump, jumpTarget?_of_nonneg h]

theorem State.takeJump_of_neg (s : State) {target : Word} (h : sint target < 0) (w : InsnWord) :
    s.takeJump target w = s.raise .invalidJumpTarget w := by
  simp [State.takeJump, jumpTarget?_of_neg h]

/-! ### STATUS -/

@[simp] theorem haltedStatus_getLsbD_zero (c : Cause) : (haltedStatus c).getLsbD 0 = true := by
  rcases c with _ | _ | k
  · rfl
  · rfl
  · cases k <;> rfl

@[simp] theorem haltedStatus_cause (c : Cause) : (haltedStatus c).extractLsb' 4 4 = causeCode c := by
  rcases c with _ | _ | k
  · rfl
  · rfl
  · cases k <;> rfl

theorem haltedStatus_eq (c : Cause) : haltedStatus c = (1 : BitVec 32) ||| ((causeCode c).setWidth 32 <<< 4) := by
  rcases c with _ | _ | k
  · rfl
  · rfl
  · cases k <;> rfl

theorem causeCode_inj {c d : Cause} (h : causeCode c = causeCode d) : c = d := by
  rcases c with _ | _ | k <;> rcases d with _ | _ | j <;> try rfl
  all_goals first
    | (cases k <;> cases j <;> first | rfl | exact absurd h (by decide))
    | (cases k <;> exact absurd h (by decide))
    | (cases j <;> exact absurd h (by decide))
    | exact absurd h (by decide)

@[simp] theorem State.haltEntry_halted (s : State) (c : Cause) (w : InsnWord) : (s.haltEntry c w).halted = true := by
  simp [State.halted]

@[simp] theorem State.haltEntry_cause (s : State) (c : Cause) (w : InsnWord) :
    (s.haltEntry c w).cause = causeCode c := by
  simp [State.cause]

@[simp] theorem State.continueAt_halted (s : State) (n : Word) : (s.continueAt n).halted = s.halted := rfl

@[simp] theorem State.setEq_halted (s : State) (v : Bool) : (s.setEq v).halted = s.halted := rfl

@[simp] theorem State.memWrite_halted (s : State) (x : DmemAddr) (v : Word) : (s.memWrite x v).halted = s.halted := rfl

@[simp] theorem State.setReg_halted (s : State) (r : Reg) (v : Word) : (s.setReg r v).halted = s.halted := by
  cases r <;> rfl

@[simp] theorem State.aluWrite_halted (s : State) (op : Int → Int → Int) (rd rs : Reg) :
    (s.aluWrite op rd rs).halted = s.halted := by
  simp [State.halted]

/-! ### Halt entry and commit -/

/-- Halt entry writes STATUS, ERR_INSN and the strobe, and nothing else (R119). -/
theorem State.haltEntry_haltedFrom (s : State) (c : Cause) (w : InsnWord) : HaltedFrom c w s (s.haltEntry c w) where
  halted := s.haltEntry_halted c w
  cause := s.haltEntry_cause c w
  status := haltedStatus_eq c
  errInsn := rfl
  noStrobe := rfl
  regs := fun r => s.haltEntry_reg c w r
  pc := rfl
  eq := rfl
  dmem := fun _ => rfl
  imem := rfl
  progLen := rfl
  rst := rfl
  progLenPin := rfl

theorem State.raise_haltedFrom (s : State) (k : ErrorKind) (w : InsnWord) :
    HaltedFrom (.runtimeError k) w s (s.raise k w) := s.haltEntry_haltedFrom _ w

theorem State.stopNormal_haltedFrom (s : State) : HaltedFrom .normalHalt s.errInsn s s.stopNormal :=
  s.haltEntry_haltedFrom _ _

theorem State.stopEndOfProgram_haltedFrom (s : State) :
    HaltedFrom .endOfProgram s.errInsn s s.stopEndOfProgram := s.haltEntry_haltedFrom _ _

/-- A commit after updates that leave the control state alone is a continuation (R83, R90). -/
theorem State.continueAt_continued {s u : State} (h : SameControl s u) (n : Word) : Continued s (u.continueAt n) where
  strobe := rfl
  control := ⟨h.status, h.errInsn, h.imem, h.progLen, h.rst, h.progLenPin⟩

theorem SameControl.refl (s : State) : SameControl s s := ⟨rfl, rfl, rfl, rfl, rfl, rfl⟩

theorem State.setReg_sameControl (s : State) (r : Reg) (v : Word) : SameControl s (s.setReg r v) := by
  constructor <;> simp

/-! ### The fetch -/

theorem fetch_eq_endOfProgram {s : State} : fetch s = .endOfProgram ↔ uint s.progLen ≤ uint s.pc := by
  unfold fetch
  split
  · simp_all
  · split <;> simp_all

theorem fetch_eq_word {s : State} {w : InsnWord} :
    fetch s = .word w ↔ uint s.pc < uint s.progLen ∧ s.ifetch (uint s.pc) = some w := by
  unfold fetch
  split
  · simp only [reduceCtorEq, false_iff]; omega
  · split <;> simp_all

theorem fetch_eq_notLoaded {s : State} :
    fetch s = .notLoaded ↔ uint s.pc < uint s.progLen ∧ s.ifetch (uint s.pc) = none := by
  unfold fetch
  split
  · simp only [reduceCtorEq, false_iff]; omega
  · split <;> simp_all

end Sys2Proof.Machine
end

