-- ==== Sys2Proof/Laws/PerInstr.lean ====
section
/-! SUPPORT. Facts about every instruction as syntax, one lemma per constructor (LAWS.json). -/

namespace Sys2Proof.Laws.UnusedFieldsZero

/-- The instruction's word has a 0 in every field its format does not use (R57, R62). -/
def Statement (i : Instr) : Prop := Sys2Proof.UnusedFieldsZero i.opcode.format (encode i)

theorem load (rd : Reg) (imm : Word) : Statement (.load rd imm) := by
  simp [Statement, Sys2Proof.UnusedFieldsZero, Instr.opcode, Opcode.format, encode, encodeRI]

theorem loadm (rd : Reg) (addr : Word) : Statement (.loadm rd addr) := by
  simp [Statement, Sys2Proof.UnusedFieldsZero, Instr.opcode, Opcode.format, encode, encodeRI]

theorem store (rs : Reg) (addr : Word) : Statement (.store rs addr) := by
  simp [Statement, Sys2Proof.UnusedFieldsZero, Instr.opcode, Opcode.format, encode, encodeRI]

theorem add (rd rs : Reg) : Statement (.add rd rs) := by
  simp [Statement, Sys2Proof.UnusedFieldsZero, Instr.opcode, Opcode.format, encode, encodeRR]

theorem sub (rd rs : Reg) : Statement (.sub rd rs) := by
  simp [Statement, Sys2Proof.UnusedFieldsZero, Instr.opcode, Opcode.format, encode, encodeRR]

theorem mul (rd rs : Reg) : Statement (.mul rd rs) := by
  simp [Statement, Sys2Proof.UnusedFieldsZero, Instr.opcode, Opcode.format, encode, encodeRR]

theorem div (rd rs : Reg) : Statement (.div rd rs) := by
  simp [Statement, Sys2Proof.UnusedFieldsZero, Instr.opcode, Opcode.format, encode, encodeRR]

theorem cmp (ra rb : Reg) : Statement (.cmp ra rb) := by
  simp [Statement, Sys2Proof.UnusedFieldsZero, Instr.opcode, Opcode.format, encode, encodeRR]

theorem jmp (target : Word) : Statement (.jmp target) := by
  simp [Statement, Sys2Proof.UnusedFieldsZero, Instr.opcode, Opcode.format, encode, encodeI]

theorem je (target : Word) : Statement (.je target) := by
  simp [Statement, Sys2Proof.UnusedFieldsZero, Instr.opcode, Opcode.format, encode, encodeI]

theorem jne (target : Word) : Statement (.jne target) := by
  simp [Statement, Sys2Proof.UnusedFieldsZero, Instr.opcode, Opcode.format, encode, encodeI]

theorem halt : Statement .halt := by
  simp [Statement, Sys2Proof.UnusedFieldsZero, Instr.opcode, Opcode.format, encode]

end Sys2Proof.Laws.UnusedFieldsZero
end

