-- ==== Sys2Proof/Laws/Step.lean ====
section
/-! SUPPORT. What an instruction and a step can do, said once: one case per way (R98-R114, R95). -/

namespace Sys2Proof.Machine

/-- The ways an instruction can take a state to its next state. -/
inductive ExecutesTo (s : State) : Instr → State → Prop where
  | load (rd : Reg) (imm : Word) : ExecutesTo s (.load rd imm) ((s.setReg rd imm).continueAt s.pcNext)
  | loadm (rd : Reg) (addr : Word) (a : DmemAddr) (h : sint addr = (a.val : Int)) :
      ExecutesTo s (.loadm rd addr) ((s.setReg rd (s.memRead a)).continueAt s.pcNext)
  | loadmOutside (rd : Reg) (addr : Word) (h : sint addr < 0 ∨ 255 < sint addr) :
      ExecutesTo s (.loadm rd addr) (s.raise .invalidMemoryAddress (encode (.loadm rd addr)))
  | store (rs : Reg) (addr : Word) (a : DmemAddr) (h : sint addr = (a.val : Int)) :
      ExecutesTo s (.store rs addr) ((s.memWrite a (s.reg rs)).continueAt s.pcNext)
  | storeOutside (rs : Reg) (addr : Word) (h : sint addr < 0 ∨ 255 < sint addr) :
      ExecutesTo s (.store rs addr) (s.raise .invalidMemoryAddress (encode (.store rs addr)))
  | add (rd rs : Reg) : ExecutesTo s (.add rd rs) (s.aluWrite (· + ·) rd rs)
  | sub (rd rs : Reg) : ExecutesTo s (.sub rd rs) (s.aluWrite (· - ·) rd rs)
  | mul (rd rs : Reg) : ExecutesTo s (.mul rd rs) (s.aluWrite (· * ·) rd rs)
  | div (rd rs : Reg) (h : sint (s.reg rs) ≠ 0) : ExecutesTo s (.div rd rs) (s.aluWrite floorDiv rd rs)
  | divByZero (rd rs : Reg) (h : sint (s.reg rs) = 0) :
      ExecutesTo s (.div rd rs) (s.raise .divisionByZero (encode (.div rd rs)))
  | cmp (ra rb : Reg) :
      ExecutesTo s (.cmp ra rb) ((s.setEq (eqResult (s.reg ra) (s.reg rb))).continueAt s.pcNext)
  | jmp (target : Word) (h : 0 ≤ sint target) : ExecutesTo s (.jmp target) (s.continueAt target)
  | jmpNegative (target : Word) (h : sint target < 0) :
      ExecutesTo s (.jmp target) (s.raise .invalidJumpTarget (encode (.jmp target)))
  | jeTaken (target : Word) (he : s.eq = true) (h : 0 ≤ sint target) :
      ExecutesTo s (.je target) (s.continueAt target)
  | jeNegative (target : Word) (he : s.eq = true) (h : sint target < 0) :
      ExecutesTo s (.je target) (s.raise .invalidJumpTarget (encode (.je target)))
  | jeNotTaken (target : Word) (he : s.eq = false) : ExecutesTo s (.je target) (s.continueAt s.pcNext)
  | jneTaken (target : Word) (he : s.eq = false) (h : 0 ≤ sint target) :
      ExecutesTo s (.jne target) (s.continueAt target)
  | jneNegative (target : Word) (he : s.eq = false) (h : sint target < 0) :
      ExecutesTo s (.jne target) (s.raise .invalidJumpTarget (encode (.jne target)))
  | jneNotTaken (target : Word) (he : s.eq = true) : ExecutesTo s (.jne target) (s.continueAt s.pcNext)
  | halt : ExecutesTo s .halt s.stopNormal

/-- Every instruction answers a next state, in one of these ways. -/
theorem exec_executesTo (i : Instr) (s : State) : ∃ t, exec i s = .next t ∧ ExecutesTo s i t := by
  cases i with
  | load rd imm => exact ⟨_, rfl, .load rd imm⟩
  | loadm rd addr =>
    cases ha : dmemAddr? addr with
    | none =>
      exact ⟨_, by simp only [exec, execLoadm, ha], .loadmOutside rd addr (dmemAddr?_eq_none.mp ha)⟩
    | some a => exact ⟨_, by simp only [exec, execLoadm, ha], .loadm rd addr a (dmemAddr?_eq_some.mp ha)⟩
  | store rs addr =>
    cases ha : dmemAddr? addr with
    | none =>
      exact ⟨_, by simp only [exec, execStore, ha], .storeOutside rs addr (dmemAddr?_eq_none.mp ha)⟩
    | some a => exact ⟨_, by simp only [exec, execStore, ha], .store rs addr a (dmemAddr?_eq_some.mp ha)⟩
  | add rd rs => exact ⟨_, rfl, .add rd rs⟩
  | sub rd rs => exact ⟨_, rfl, .sub rd rs⟩
  | mul rd rs => exact ⟨_, rfl, .mul rd rs⟩
  | div rd rs =>
    by_cases h : sint (s.reg rs) = 0
    · exact ⟨_, by simp only [exec, execDiv]; rw [if_pos h], .divByZero rd rs h⟩
    · exact ⟨_, by simp only [exec, execDiv]; rw [if_neg h], .div rd rs h⟩
  | cmp ra rb => exact ⟨_, rfl, .cmp ra rb⟩
  | jmp target =>
    rcases lt_or_ge (sint target) 0 with h | h
    · exact ⟨_, by simp only [exec, execJmp, s.takeJump_of_neg h], .jmpNegative target h⟩
    · exact ⟨_, by simp only [exec, execJmp, s.takeJump_of_nonneg h], .jmp target h⟩
  | je target =>
    cases he : s.eq with
    | false => exact ⟨_, by simp only [exec, execJe, he]; rfl, .jeNotTaken target he⟩
    | true =>
      rcases lt_or_ge (sint target) 0 with h | h
      · exact ⟨_, by simp only [exec, execJe, he, if_true, s.takeJump_of_neg h], .jeNegative target he h⟩
      · exact ⟨_, by simp only [exec, execJe, he, if_true, s.takeJump_of_nonneg h], .jeTaken target he h⟩
  | jne target =>
    cases he : s.eq with
    | true => exact ⟨_, by simp only [exec, execJne, he]; rfl, .jneNotTaken target he⟩
    | false =>
      rcases lt_or_ge (sint target) 0 with h | h
      · exact ⟨_, by simp only [exec, execJne, he, s.takeJump_of_neg h]; rfl, .jneNegative target he h⟩
      · exact ⟨_, by simp only [exec, execJne, he, s.takeJump_of_nonneg h]; rfl, .jneTaken target he h⟩
  | halt => exact ⟨_, rfl, .halt⟩

/-- Inversion of `exec`. -/
theorem exec_cases {i : Instr} {s t : State} (h : exec i s = .next t) : ExecutesTo s i t := by
  obtain ⟨u, hu, hx⟩ := exec_executesTo i s
  rw [h] at hu
  cases hu
  exact hx

/-! ### The step -/

theorem step_of_reset {s : State} (h : s.rst = true) : step s = .next s.resetEdge := by
  simp only [step, h, if_true]

theorem step_of_halted {s : State} (hr : s.rst = false) (hh : s.halted = true) : step s = .next s := by
  simp only [step, hr, hh, if_true] <;> rfl

theorem step_of_fetch {s : State} (hs : Stepping s) :
    step s =
      match fetch s with
      | .endOfProgram => finishProgram s
      | .notLoaded => .fault .imemWordNotLoaded
      | .word w =>
        match decode w with
        | .error e => raiseDecodeError e w s
        | .insn i => exec i s := by
  simp only [step, hs.released, hs.running, Bool.false_eq_true, if_false] <;> rfl

/-- The ways a transition can take a state to its next state. -/
inductive StepsTo (s : State) : State → Prop where
  | resetEdge (h : s.rst = true) : StepsTo s s.resetEdge
  | halted (hr : s.rst = false) (hh : s.halted = true) : StepsTo s s
  | endOfProgram (hs : Stepping s) (hp : uint s.progLen ≤ uint s.pc) : StepsTo s s.stopEndOfProgram
  | decodeError (hs : Stepping s) (hp : uint s.pc < uint s.progLen) (w : InsnWord)
      (hw : s.ifetch (uint s.pc) = some w) (e : DecodeError) (hd : decode w = .error e) :
      StepsTo s (s.raise (decodeErrorKind e) w)
  | executed (hs : Stepping s) (hp : uint s.pc < uint s.progLen) (w : InsnWord)
      (hw : s.ifetch (uint s.pc) = some w) (i : Instr) (hd : decode w = .insn i) (t : State)
      (hx : ExecutesTo s i t) : StepsTo s t

/-- Inversion of `step`. -/
theorem step_cases {s t : State} (h : step s = .next t) : StepsTo s t := by
  by_cases hr : s.rst = true
  · rw [step_of_reset hr] at h; cases h; exact .resetEdge hr
  have hr := Bool.eq_false_iff.mpr hr
  by_cases hh : s.halted = true
  · rw [step_of_halted hr hh] at h; cases h; exact .halted hr hh
  have hs : Stepping s := ⟨hr, Bool.eq_false_iff.mpr hh⟩
  rw [step_of_fetch hs] at h
  cases hf : fetch s with
  | endOfProgram => rw [hf] at h; cases h; exact .endOfProgram hs (fetch_eq_endOfProgram.mp hf)
  | notLoaded => rw [hf] at h; cases h
  | word w =>
    obtain ⟨hp, hw⟩ := fetch_eq_word.mp hf
    rw [hf] at h
    simp only at h
    cases hd : decode w with
    | error e => rw [hd] at h; cases h; exact .decodeError hs hp w hw e hd
    | insn i => rw [hd] at h; exact .executed hs hp w hw i hd t (exec_cases h)

/-! ### Runs -/

@[simp] theorem run_zero (s : State) : Host.Core.run core 0 s = .next s := rfl

/-- One transition, then the rest of the run. -/
theorem run_succ (n : Nat) (s : State) :
    Host.Core.run core (n + 1) s = andThen (step s) (Host.Core.run core n) := by
  refine (Host.Core.run.eq_2 core s n).trans ?_
  have hc : core.step s = step s := rfl
  rw [hc]
  cases step s <;> rfl

end Sys2Proof.Machine
end

