-- ==== Sys2Proof/Tests/Slice0.lean ====
section
/-! SUPPORT. The model's own tests and the witnesses of the statements' hypotheses. Expected results come from
95_test_vectors, the instruction pages, or a hand computation from the cited rule. -/

namespace Sys2Proof.Tests

open Sys2Proof.Machine

/-! ### Helpers -/

/-- A machine with the word `w` at index `pc` of a program of six words, and the given registers and flag. -/
def at6 (a b c d : Word) (eq : Bool) (pc : Word) (w : InsnWord) : State :=
  { State.reset with a := a, b := b, c := c, d := d, eq := eq, pc := pc, imem := [(uint pc, w)], progLen := 6 }

/-- A booted machine: a program loaded from index 0, every other value as at reset. -/
def loaded (ws : List InsnWord) : State :=
  { State.reset with
    imem := (List.range ws.length).zip ws
    progLen := BitVec.ofNat 32 ws.length
    progLenPin := BitVec.ofNat 32 ws.length }

/-- What one step shows: PC, registers, EQ, HALTED, CAUSE, ERR_INSN. -/
structure Shown where
  pc : Word
  regs : List Word
  eq : Bool
  halted : Bool
  cause : BitVec 4
  errInsn : InsnWord
deriving DecidableEq, Repr

/-- What a state shows. -/
def shown (s : State) : Shown := ⟨s.pc, [s.a, s.b, s.c, s.d], s.eq, s.halted, s.cause, s.errInsn⟩

/-- A function of the state after one step, if there is one. -/
def afterStep {α : Type} (f : State → α) (s : State) : Option α :=
  match step s with
  | .next t => some (f t)
  | _ => none

/-- A function of the state after two steps, if there is one. -/
def afterTwo {α : Type} (f : State → α) (s : State) : Option α :=
  match step s with
  | .next t => afterStep f t
  | _ => none

/-- What a step that continues shows: STATUS and ERR_INSN still 0. -/
def goesOn (pc : Word) (regs : List Word) (eq : Bool) : Option Shown := some ⟨pc, regs, eq, false, 0, 0⟩

/-- What a step that ends the run shows. -/
def ends (pc : Word) (regs : List Word) (eq : Bool) (cause : BitVec 4) (err : InsnWord) : Option Shown :=
  some ⟨pc, regs, eq, true, cause, err⟩

/-! ### Well-formedness: an ill-formed word for each check (R57), and a program that fits -/

theorem test_wf_refuses_wrong_opcode : wordWellFormed .load 0x0200000000000005 = false := by decide

theorem test_wf_refuses_nonzero_unused_bits :
    fixedBitsRight .load 0x0100000100000005 = false ∧ wordWellFormed .load 0x0104000000000005 = false ∧
    wordWellFormed .add 0x0404000000000001 = false ∧ wordWellFormed .jmp 0x09E0000000000005 = false ∧
    wordWellFormed .halt 0x0C00000000000001 = false := by decide

theorem test_wf_refuses_unknown_register :
    usedRegistersKnown .load 0x0180000000000005 = false ∧ wordWellFormed .add 0x04E0000000000000 = false ∧
    wordWellFormed .cmp 0x0810000000000000 = false := by decide

theorem test_wf_accepts_the_vectors :
    wordWellFormed .load 0x01600000FFFFFFFF = true ∧ wordWellFormed .add 0x046C000000000000 = true ∧
    wordWellFormed .je 0x0A000000FFFFFFFF = true ∧ wordWellFormed .halt 0x0C00000000000000 = true := by decide

theorem test_wf_program : programFits [0x0C00000000000000] := Nat.le_add_left 1 _

/-- No program of 2^31 words fits any store (R6). -/
theorem test_wf_refuses_too_long_program : ¬ programFits (List.replicate (2 ^ 31) 0) := by
  have h := Config.imemDepthLessOne.isLt
  intro hf
  rw [programFits, List.length_replicate, Config.imemDepth] at hf
  omega

/-! ### Decoding: one word of every row of the opcode table, written out from rules R56, R59 and R60 as
op, ra, rb, rsv, imm -/

theorem test_decode_load :
    decode 0b00000001_011_000_000000000000000000_10000000000000000000000000000000 =
      .insn (.load .D (-2147483648)) := by decide

theorem test_decode_loadm :
    decode 0b00000010_001_000_000000000000000000_00000000000000000000000000000111 =
      .insn (.loadm .B 7) := by decide

theorem test_decode_store :
    decode 0b00000011_010_000_000000000000000000_00000000000000000000000000001001 =
      .insn (.store .C 9) := by decide

theorem test_decode_add :
    decode 0b00000100_000_001_000000000000000000_00000000000000000000000000000000 =
      .insn (.add .A .B) := by decide

theorem test_decode_sub :
    decode 0b00000101_010_011_000000000000000000_00000000000000000000000000000000 =
      .insn (.sub .C .D) := by decide

theorem test_decode_mul :
    decode 0b00000110_001_010_000000000000000000_00000000000000000000000000000000 =
      .insn (.mul .B .C) := by decide

theorem test_decode_div :
    decode 0b00000111_011_000_000000000000000000_00000000000000000000000000000000 =
      .insn (.div .D .A) := by decide

theorem test_decode_cmp :
    decode 0b00001000_001_011_000000000000000000_00000000000000000000000000000000 =
      .insn (.cmp .B .D) := by decide

theorem test_decode_jmp :
    decode 0b00001001_000_000_000000000000000000_00000000000000000000000000000101 =
      .insn (.jmp 5) := by decide

theorem test_decode_je :
    decode 0b00001010_000_000_000000000000000000_11111111111111111111111111111111 =
      .insn (.je (-1)) := by decide

theorem test_decode_jne :
    decode 0b00001011_000_000_000000000000000000_00000000000000000000000000000111 =
      .insn (.jne 7) := by decide

theorem test_decode_halt :
    decode 0b00001100_000_000_000000000000000000_00000000000000000000000000000000 =
      .insn (.halt) := by decide

/-- The decode vectors of 95_test_vectors section 2 that are errors, in its order. -/
theorem test_decode_errors :
    [0x0000000000000000, 0x0D00000000000000, 0xFF00000000000000].all
      (fun w => decode w == .error .unknownOpcode) = true ∧
    [0x0C00000000000001, 0x0C20000000000000, 0x0100000100000005, 0x0104000000000005, 0x0180000100000000,
      0x0404000000000001, 0x09E0000000000005].all (fun w => decode w == .error .malformedOperands) = true ∧
    [0x0180000000000005, 0x04E0000000000000, 0x0410000000000000, 0x0880000000000000].all
      (fun w => decode w == .error .unknownRegister) = true := by decide

theorem test_decodeTableWord :
    decodeTableWord 64 0x0404000000000000 = some (.add .A .B) ∧ decodeTableWord 64 0 = none ∧
    decodeTableWord 72 0x010C00000000000000 = none := by decide

theorem test_encode_is_little_endian_in_the_image :
    imageOfWords [encode (.load .A 5)] = [5, 0, 0, 0, 0, 0, 0, 1] := by decide

/-! ### The text level (95_test_vectors, assembly) -/

theorem test_text_instructions :
    assembleLine "LOAD A 5".toList = 0x0100000000000005 ∧ assembleLine "JE\t4".toList = 0x0A00000000000004 ∧
    assembleLine "LOAD A -1".toList = 0x01000000FFFFFFFF ∧ assembleLine "LOAD A +007".toList = 0x0100000000000007 ∧
    assembleLine "LOAD A 4294967301".toList = 0x0100000000000005 ∧
    assembleLine "LOADM A 5000000000".toList = 0x020000007FFFFFFF ∧
    assembleLine "JMP -5000000000".toList = 0x0900000080000000 ∧
    assembleLine "JMP 5000000000".toList = 0x090000007FFFFFFF := by decide

theorem test_text_errors :
    assembleLine "load A 5".toList = 0 ∧ assembleLine "NOP".toList = 0 ∧
    assembleLine "LOAD A".toList = 0x0100000100000000 ∧ assembleLine "LOAD A 5 6".toList = 0x0100000100000000 ∧
    assembleLine "CMP A B C".toList = 0x0800000100000000 ∧ assembleLine "HALT # stop".toList = 0x0C00000100000000 ∧
    assembleLine "LOAD A five".toList = 0x0100000100000000 ∧ assembleLine "JMP 3.5".toList = 0x0900000100000000 ∧
    assembleLine "STORE D 0x10".toList = 0x0300000100000000 ∧ assembleLine "LOAD E 5".toList = 0x01E0000000000000 ∧
    assembleLine "LOAD A, 5".toList = 0x01E0000000000000 ∧ assembleLine "ADD A X".toList = 0x041C000000000000 ∧
    assembleLine "ADD X Y".toList = 0x04E0000000000000 ∧ assembleLine "LOADM X foo".toList = 0x02E0000000000000 := by
  decide

theorem test_disassemble :
    disassemble 0x0A000000FFFFFFFF = "JE -1".toList ∧ disassemble 0x0160000080000000 = "LOAD D -2147483648".toList ∧
    disassemble 0x01E0000000000000 = ".word 0x01E0000000000000".toList := by decide

/-! ### One step of each instruction (95_test_vectors section 2) -/

theorem test_load_DT1 :
    afterStep shown (at6 0 0 0 0 false 0 0x0160000080000000) = goesOn 1 [0, 0, 0, -2147483648] false := by decide

theorem test_loadm_DT2 :
    afterStep shown { at6 0 0 0 0 false 3 0x02000000000000FF with dmem := [(255, 42)] } =
      goesOn 4 [42, 0, 0, 0] false := by decide

theorem test_loadm_DT4 :
    afterStep shown (at6 9 0 0 0 false 2 0x0200000000000100) = ends 2 [9, 0, 0, 0] false 6 0x0200000000000100 := by
  decide

theorem test_store_DT6 :
    afterStep (fun t : State => (t.dmem, t.dump.mem.drop 9, t.pc)) (at6 0 (-1) 0 0 false 0 0x0320000000000009) =
      some ([(9, -1)], [-1], 1) := by decide

theorem test_store_DT8 :
    afterStep (fun t => (shown t, t.dmem)) (at6 1 0 0 0 false 5 0x03000000FFFFFFFF) =
      some (⟨5, [1, 0, 0, 0], false, true, 6, 0x03000000FFFFFFFF⟩, []) := by decide

theorem test_add_AR2 :
    afterStep shown (at6 2147483647 1 0 0 true 0 0x0404000000000000) =
      goesOn 1 [-2147483648, 1, 0, 0] true := by decide

theorem test_sub_AR5 :
    afterStep shown (at6 0 0 5 7 false 0 0x054C000000000000) = goesOn 1 [0, 0, -2, 7] false := by decide

theorem test_mul_AR12 :
    afterStep shown (at6 46341 46341 0 0 false 0 0x0604000000000000) =
      goesOn 1 [-2147479015, 46341, 0, 0] false := by decide

theorem test_div_AR16 :
    afterStep shown (at6 0 0 (-7) 2 false 0 0x074C000000000000) = goesOn 1 [0, 0, -4, 2] false := by decide

theorem test_div_ARZ :
    afterStep shown (at6 0 0 5 0 true 4 0x074C000000000000) = ends 4 [0, 0, 5, 0] true 7 0x074C000000000000 := by
  decide

theorem test_cmp_CM3 :
    afterStep shown (at6 0 0 (-1) (-1) false 0 0x084C000000000000) = goesOn 1 [0, 0, -1, -1] true := by decide

theorem test_cmp_CM4 :
    afterStep shown (at6 0 (-2147483648) 0 0 true 0 0x0804000000000000) =
      goesOn 1 [0, -2147483648, 0, 0] false := by decide

theorem test_jmp_CT3 :
    afterTwo shown (at6 1 2 3 4 false 2 0x0900000000000006) = ends 6 [1, 2, 3, 4] false 2 0 := by decide

theorem test_jmp_CT5 :
    afterStep shown (at6 0 0 0 0 true 3 0x09000000FFFFFFFF) = ends 3 [0, 0, 0, 0] true 8 0x09000000FFFFFFFF := by
  decide

theorem test_je_CT9 :
    afterStep shown (at6 0 0 0 0 false 2 0x0A000000FFFFFFFF) = goesOn 3 [0, 0, 0, 0] false := by decide

theorem test_je_CT10 :
    afterStep shown (at6 0 0 0 0 true 2 0x0A000000FFFFFFFF) = ends 2 [0, 0, 0, 0] true 8 0x0A000000FFFFFFFF := by
  decide

theorem test_jne_CT11 :
    afterStep shown (at6 0 0 0 0 true 2 0x0B000000FFFFFFFF) = goesOn 3 [0, 0, 0, 0] true := by decide

theorem test_jne_CT4 :
    afterStep shown (at6 0 0 0 0 false 1 0x0B00000000000007) = goesOn 7 [0, 0, 0, 0] false := by decide

theorem test_halt_CT13 :
    afterStep (fun t => (shown t, t.traceValid)) (at6 1 2 3 4 true 3 0x0C00000000000000) =
      some (⟨3, [1, 2, 3, 4], true, true, 1, 0⟩, false) := by decide

/-! ### Fetch, decode errors and end of program (95_test_vectors) -/

theorem test_fetch_FE1 : afterTwo shown (loaded [0x0100000000000001]) = ends 1 [1, 0, 0, 0] false 2 0 := by decide

theorem test_fetch_FE2 : afterStep shown (loaded []) = ends 0 [0, 0, 0, 0] false 2 0 := by decide

theorem test_fetch_FE3 : afterStep shown (loaded [0x0C00000000000000, 0]) = ends 0 [0, 0, 0, 0] false 1 0 := by decide

theorem test_fetch_FE4 :
    afterStep shown { loaded [0, 0x0C00000000000000] with progLen := 1 } = ends 0 [0, 0, 0, 0] false 3 0 := by decide

theorem test_fetch_FE5 :
    step { loaded [0] with status := 0x31 } = .next { loaded [0] with status := 0x31 } := rfl

/-- Index 1 of program P6. -/
theorem test_unknown_register_P6 :
    afterStep shown (at6 0 4 0 0 false 1 0x043C000000000000) = ends 1 [0, 4, 0, 0] false 5 0x043C000000000000 := by
  decide

/-- Log 2: an index below N that nobody loaded stops the model by name. -/
theorem test_word_not_loaded : step { State.reset with progLen := 1 } = .fault .imemWordNotLoaded := rfl

theorem test_withFetchWord_runs_the_word :
    afterStep shown (State.reset.withFetchWord 64 0x0160000080000000) = goesOn 1 [0, 0, 0, -2147483648] false := by
  decide

theorem test_memory_keeps_the_canonical_form :
    Memory.write [(3, 1), (9, 2)] 5 7 = [(3, 1), (5, 7), (9, 2)] ∧ Memory.write [(3, 1), (9, 2)] 9 0 = [(3, 1)] ∧
    Memory.wf [(3, 1), (5, 7)] = true ∧ Memory.wf [(5, 7), (3, 1)] = false ∧ Memory.wf [(5, 0)] = false ∧
    Memory.wf [(256, 1)] = false := by decide

/-! ### Witnesses: for each statement with hypotheses, data that meet them, for each clause at its boundaries -/

/-- Running, at word `w` of a program of six, with registers 2^31-1, -2^31, 0 and -1. -/
def sample (eq : Bool) (w : InsnWord) : State := at6 2147483647 (-2147483648) 0 (-1) eq 0 w

/-- A halted machine: InvalidMemoryAddress at index 2 (the end of program P3). -/
def haltedSample : State :=
  { at6 1 0 0 0 false 2 0x0300000000000100 with status := 0x61, errInsn := 0x0300000000000100, dmem := [(255, 1)] }

/-- Words that decode, for DecodedWordIsItsOwnEncoding and DisassembledInstructionReassembles. -/
theorem witness_decoded_words :
    decode 0x0160000080000000 = .insn (.load .D (-2147483648)) ∧ decode 0x086C000000000000 = .insn (.cmp .D .D) ∧
    decode 0x0B000000FFFFFFFF = .insn (.jne (-1)) ∧ decode 0x0C00000000000000 = .insn .halt := by decide

theorem witness_SaturationKeepsTheOutcome :
    (-(2 ^ 31) : Int) ≤ -(2 ^ 31) ∧ (2 ^ 31 - 1 : Int) ≤ 2 ^ 31 - 1 ∧ (2 ^ 31 - 1 : Int) < 2 ^ 31 := by decide

theorem witness_FloorDivIsTheGreatestQuotient :
    (0 : Int) < 2 ∧ (-3) * 2 ≤ (-5 : Int) ∧ (-2 : Int) < 0 ∧ (-5 : Int) ≤ 2 * (-2) := by decide

theorem witness_DivFollowsTheSignTable :
    (∀ row ∈ floorDivTable,
      sint ((at6 (wrap32 row.1) (wrap32 row.2.1) 0 0 false 0 0).reg .A) = row.1 ∧
      sint ((at6 (wrap32 row.1) (wrap32 row.2.1) 0 0 false 0 0).reg .B) = row.2.1) ∧
    sint ((at6 5 0 0 0 false 0 0).reg .A) = 5 ∧ sint ((at6 5 0 0 0 false 0 0).reg .B) = 0 ∧
    sint ((at6 0 0 0 0 false 0 0).reg .A) = 0 := by decide

theorem witness_DivOverflowsOnlyAtTheMinimum :
    sint ((sample false 0).reg .B) = -(2 ^ 31) ∧ sint ((sample false 0).reg .D) = -1 ∧
    sint (2147483647 : Word) ≠ 0 ∧ ¬(sint (2147483647 : Word) = -(2 ^ 31) ∧ sint (2147483647 : Word) = -1) ∧
    ¬(sint (-2147483648 : Word) = -(2 ^ 31) ∧ sint (1 : Word) = -1) := by decide

/-- Rd = 2^31-1 and Rs = 0, then -1: every range at an end; for DIV Rs = -1. -/
theorem witness_ArithmeticIsExactInRange :
    sint ((sample false 0).reg .A) + sint ((sample false 0).reg .C) = 2 ^ 31 - 1 ∧
    sint ((sample false 0).reg .B) - sint ((sample false 0).reg .C) = -(2 ^ 31) ∧
    sint ((sample false 0).reg .B) * sint ((at6 0 0 1 0 false 0 0).reg .C) = -(2 ^ 31) ∧
    sint ((sample false 0).reg .D) ≠ 0 ∧
    floorDiv (sint ((sample false 0).reg .A)) (sint ((sample false 0).reg .D)) = -(2 ^ 31 - 1) := by decide

theorem witness_SameRegisterTwiceReadsTheOldValue : (sample false 0).reg .D ≠ 0 := by decide

/-- The address clauses of LoadmReadsTheWord, StoreWritesTheWord, DmemAddressCheckIsExact, StoreThenLoadmGivesTheValue
and StoreShowsInTheDumpOnlyBelowTen, in any state: 0, 9, 10 and 255 inside, -1 and 256 outside. -/
theorem witness_addresses :
    sint (0 : Word) = ((0 : DmemAddr).val : Int) ∧ sint (255 : Word) = ((255 : DmemAddr).val : Int) ∧
    sint (-1 : Word) < 0 ∧ 255 < sint (256 : Word) ∧
    (0 ≤ sint (0 : Word) ∧ sint (0 : Word) ≤ 255) ∧ (0 ≤ sint (255 : Word) ∧ sint (255 : Word) ≤ 255) ∧
    ¬(0 ≤ sint (-1 : Word) ∧ sint (-1 : Word) ≤ 255) ∧ ¬(0 ≤ sint (256 : Word) ∧ sint (256 : Word) ≤ 255) ∧
    10 ≤ sint (10 : Word) ∧ sint (9 : Word) < 10 := by decide

theorem witness_DivWritesTheWrappedFloorQuotient :
    sint ((sample false 0).reg .D) ≠ 0 ∧ sint ((sample false 0).reg .C) = 0 := by decide

/-- The target clauses of JmpGoesToTheTarget, JeJumpsWhenEqIsSet, JneJumpsWhenEqIsClear and
TargetIsCheckedOnlyWhenTaken: 0 and 2^31-1 legal, -1 and -2^31 not, EQ both ways. -/
theorem witness_targets :
    0 ≤ sint (0 : Word) ∧ 0 ≤ sint (2147483647 : Word) ∧ sint (-1 : Word) < 0 ∧ sint (-2147483648 : Word) < 0 ∧
    (sample true 0).eq = true ∧ (sample false 0).eq = false := by decide

theorem stepping_sample (eq : Bool) (w : InsnWord) : Stepping (sample eq w) :=
  ⟨rfl, by simp [sample, at6, State.halted, State.reset]⟩

/-- A taken jump to N itself, and not taken jumps, on a machine that steps. -/
theorem witness_TargetIsCheckedOnlyWhenTaken :
    Stepping (sample true 0) ∧ uint (sample true 0).progLen ≤ uint (6 : Word) ∧
    (Instr.je 6 = .je 6 ∧ (sample true 0).eq = true) ∧ (Instr.jne 6 = .jne 6 ∧ (sample false 0).eq = false) :=
  ⟨stepping_sample _ _, by decide, by decide, by decide⟩

/-- LOAD changes its destination; LOADM of address 256 ends the run from Running. -/
theorem witness_RegistersChangeOnlyAsDestinations :
    (∃ t, exec (.load .A 5) (sample false 0) = .next t ∧ t.reg .A ≠ (sample false 0).reg .A) ∧
    (∃ t, exec (.loadm .A 256) (sample false 0) = .next t ∧ (sample false 0).halted = false ∧ t.halted = true) :=
  ⟨⟨_, rfl, by decide⟩, ⟨_, rfl, by decide, by decide⟩⟩

/-- CMP A A changes EQ from 0; ADD is no jump. -/
theorem witness_OnlyCmpWritesEqAndOnlyJumpsReadIt :
    (∃ t, exec (.cmp .A .A) (sample false 0) = .next t ∧ t.eq ≠ (sample false 0).eq) ∧
    (∀ x, Instr.add .A .B ≠ .je x) ∧ (∀ x, Instr.add .A .B ≠ .jne x) :=
  ⟨⟨_, rfl, by decide⟩, nofun, nofun⟩

/-- STORE A 255 changes the memory; STORE is no LOADM; two memories that agree below 10 and differ at 10. -/
theorem witness_OnlyStoreWritesAndOnlyLoadmReadsDmem :
    (∃ t, exec (.store .A 255) (sample false 0) = .next t ∧ t.dmem ≠ (sample false 0).dmem) ∧
    (∀ r x, Instr.store .A 255 ≠ .loadm r x) ∧
    (∀ a : DmemAddr, a.val < 10 → Memory.read [(10, 7)] a = Memory.read [] a) ∧
    Memory.read [(10, 7)] 10 ≠ Memory.read [] 10 :=
  ⟨⟨_, rfl, by decide⟩, nofun, fun a ha => by
    have h : (10 : Nat) ≠ a.val := by omega
    simp [Memory.read, cellAt, h], by decide⟩

theorem witness_NoStepWritesTheProgram : ∃ t, step (sample false 0x0C00000000000000) = .next t := ⟨_, rfl⟩

/-- Each decode error, and each way an instruction ends the run. -/
theorem witness_EachInstructionRaisesOnlyItsErrors :
    decode 0x0D00000000000000 = .error .unknownOpcode ∧ decode 0x0C00000000000001 = .error .malformedOperands ∧
    decode 0x0810000000000000 = .error .unknownRegister ∧ (sample false 0).halted = false ∧
    [Instr.loadm .A 256, .store .A (-1), .div .A .C, .jmp (-1), .jne (-1), .halt].all (fun i =>
      match exec i (sample false 0) with
      | .next t => t.halted
      | _ => false) = true := by decide

theorem witness_StepRunsTheDecodedInstruction :
    Stepping (sample false 0x0C00000000000000) ∧
    uint (sample false 0x0C00000000000000).pc < uint (sample false 0x0C00000000000000).progLen ∧
    (sample false 0x0C00000000000000).ifetch 0 = some 0x0C00000000000000 ∧
    decode 0x0C00000000000000 = .insn .halt :=
  ⟨stepping_sample _ _, by decide, by decide, by decide⟩

theorem witness_DecodeErrorHaltsTheStep :
    Stepping (sample false 0) ∧ uint (sample false 0).pc < uint (sample false 0).progLen ∧
    (sample false 0).ifetch 0 = some 0 ∧ decode 0 = .error .unknownOpcode :=
  ⟨stepping_sample _ _, by decide, by decide, by decide⟩

/-- N = 0, and a PC of exactly N. -/
theorem witness_FetchPastTheEndEndsTheProgram :
    Stepping State.reset ∧ uint State.reset.progLen ≤ uint State.reset.pc ∧
    Stepping { loaded [0] with pc := 1 } ∧
    uint { loaded [0] with pc := 1 }.progLen ≤ uint { loaded [0] with pc := 1 }.pc :=
  ⟨⟨rfl, rfl⟩, by decide, ⟨rfl, rfl⟩, by decide⟩

/-- A step of each of the four ways: LOAD, HALT, end of program, an illegal word. -/
theorem witness_StepEndsInOneOfFourWays :
    (∀ w, Stepping (sample false w)) ∧ Stepping State.reset ∧
    (∃ t, step (sample false 0x0160000080000000) = .next t ∧ t.halted = false) ∧
    (∃ t, step (sample false 0x0C00000000000000) = .next t ∧ t.cause = 1) ∧
    (∃ t, step State.reset = .next t ∧ t.cause = 2) ∧
    (∃ t, step (sample false 0) = .next t ∧ t.cause = 3) :=
  ⟨stepping_sample false, ⟨rfl, rfl⟩, ⟨_, rfl, by decide⟩, ⟨_, rfl, by decide⟩, ⟨_, rfl, by decide⟩,
    ⟨_, rfl, by decide⟩⟩

/-- InvalidMemoryAddress, InvalidJumpTarget and DivisionByZero each raised by a step. -/
theorem witness_ErrorRecordLocatesTheFault :
    (∀ w, Stepping (sample false w)) ∧
    (∃ t, step (sample false 0x0200000000000100) = .next t ∧ t.halted = true ∧
      t.cause = causeCode (.runtimeError .invalidMemoryAddress)) ∧
    (∃ t, step (sample false 0x09000000FFFFFFFF) = .next t ∧ t.halted = true ∧
      t.cause = causeCode (.runtimeError .invalidJumpTarget)) ∧
    (∃ t, step (sample false 0x0708000000000000) = .next t ∧ t.halted = true ∧
      t.cause = causeCode (.runtimeError .divisionByZero)) :=
  ⟨stepping_sample false, ⟨_, rfl, by decide, by decide⟩, ⟨_, rfl, by decide, by decide⟩,
    ⟨_, rfl, by decide, by decide⟩⟩

/-- A halted machine with `rst` low, and one with `rst` high, which a transition takes out of Halted. -/
theorem witness_HaltedIsTerminal :
    haltedSample.rst = false ∧ haltedSample.halted = true ∧
    (∃ t, step haltedSample.assertReset = .next t ∧ t.halted = false) :=
  ⟨rfl, by decide, ⟨_, rfl, by decide⟩⟩

/-- Two program stores that agree at the PC and nowhere else. -/
theorem witness_OnlyTheWordAtThePcMatters :
    uint (sample false 0).pc < uint (sample false 0).progLen ∧
    cellAt 0 [((0 : Nat), (0 : InsnWord)), (1, 7)] = cellAt (uint (sample false 0).pc) (sample false 0).imem ∧
    [((0 : Nat), (0 : InsnWord)), (1, 7)] ≠ (sample false 0).imem := by decide

theorem loaded_one (w : InsnWord) : Loaded (loaded [w]) := by
  intro i hi
  have h1 : uint (loaded [w]).progLen = 1 := rfl
  obtain rfl : i = 0 := by omega
  exact ⟨w, rfl⟩

theorem witness_LoadedMachineNeverStops :
    Loaded (loaded [0x0900000000000000]) ∧ uint (loaded [0x0900000000000000]).progLen = 1 := ⟨loaded_one _, rfl⟩

theorem witness_EqualReadsMakeEqualMemories :
    Memory.wf [(0, -1), (255, 1)] = true ∧ (∀ a, Memory.read [(0, -1), (255, 1)] a = Memory.read [(0, -1), (255, 1)] a) :=
  ⟨by decide, fun _ => rfl⟩

/-- One continuing step of a run, and a halted machine. -/
theorem witness_TraceHoldsOneRecordPerContinuingStep :
    (sample false 0x0160000080000000).rst = false ∧
    (∃ t, Host.Core.run core 1 (sample false 0x0160000080000000) = .next t ∧ t.halted = false) ∧
    haltedSample.halted = true :=
  ⟨rfl, ⟨_, rfl, by decide⟩, by decide⟩

/-- The run of HALT ends after one step. -/
theorem witness_EndOfRunIsFinal :
    (sample false 0x0C00000000000000).rst = false ∧
    ∃ t, endsIn 1 (sample false 0x0C00000000000000) t .normalHalt :=
  ⟨rfl, ⟨_, rfl, rfl⟩⟩

/-- A machine under reset in mid-run, released with N = 0 and N = 1, which every store allows; and a halted machine
that is not under reset. -/
theorem witness_ResetGivesTheResetValues :
    haltedSample.assertReset.rst = true ∧ haltedSample.assertReset.status ≠ 0 ∧
    uint haltedSample.assertReset.progLenPin ≤ Config.imemDepth ∧
    uint { haltedSample.assertReset with progLenPin := 1 }.progLenPin ≤ Config.imemDepth ∧
    haltedSample.rst = false :=
  ⟨rfl, by decide, Nat.zero_le _, Nat.le_add_left 1 _, rfl⟩

/-- R28: driving `rst` to 0 on a halted machine whose `rst` is 0 leaves it halted with its error recorded. -/
theorem test_release_without_reset : hostReleaseReset haltedSample = .next haltedSample := rfl

theorem inv_loaded (w : InsnWord) : Inv (loaded [w]) where
  dmemWf := rfl
  imemRising := rfl
  imemInStore := by
    intro x hx
    obtain rfl := List.mem_singleton.mp hx
    exact Nat.succ_pos _
  progFits := Nat.le_add_left 1 _
  pcBound := Nat.zero_le _
  statusLegal := .inl rfl
  errInsnOnError := fun h => absurd rfl h
  strobeRunning := nofun

theorem witness_BootLoadsTheProgram :
    programFits [] ∧ programFits [0x0C00000000000000] ∧ Inv (loaded [0]) :=
  ⟨Nat.zero_le _, test_wf_program, inv_loaded 0⟩

theorem witness_BrokenHostDutiesAreRefused :
    State.reset.rst = false ∧
    { State.reset with rst := true, progLenPin := 2147483648 }.rst = true ∧
    Config.imemDepth < uint { State.reset with rst := true, progLenPin := 2147483648 }.progLenPin ∧
    ¬ programFits (List.replicate (2 ^ 31) 0) :=
  ⟨rfl, rfl, Nat.lt_of_le_of_lt (Nat.succ_le_of_lt Config.imemDepthLessOne.isLt) (by decide),
    test_wf_refuses_too_long_program⟩

/-- For EveryStepKeepsTheInvariant and InvariantGivesTheStatusRules: the invariant holds of a booted machine that steps,
and of one halted by an error. -/
theorem witness_EveryStepKeepsTheInvariant :
    Inv (loaded [0x0160000080000000]) ∧ (∃ t, step (loaded [0x0160000080000000]) = .next t) ∧
    Inv { loaded [0] with status := 0x31 } :=
  ⟨inv_loaded _, ⟨_, rfl⟩,
    { inv_loaded 0 with
      statusLegal := .inr ⟨.runtimeError .unknownOpcode, rfl⟩
      errInsnOnError := fun h => absurd rfl h
      strobeRunning := nofun }⟩

end Sys2Proof.Tests
end

section
/-! PROOFS. The word of an integer (R8) and the floor quotient (R9). -/

namespace Sys2Proof.Machine

/-! ### `wrap32` -/

theorem sint_wrap32 (n : Int) : sint (wrap32 n) = n.bmod (2 ^ 32) := BitVec.toInt_ofInt n

/-- `wrap32 n` is the only word whose signed reading is congruent to `n`: `sint` is injective, and the balanced
remainder of `n` is the one congruent integer in the range of `sint`. -/
theorem eq_wrap32_iff (n : Int) (v : Word) : v = wrap32 n ↔ (sint v - n) % 2 ^ 32 = 0 := by
  have hrange := sint_range v
  calc v = wrap32 n
      ↔ sint v = sint (wrap32 n) := BitVec.toInt_inj.symm
    _ ↔ n.bmod (2 ^ 32) = sint v := by rw [sint_wrap32, eq_comm]
    _ ↔ (2 ^ 32 : Int) ∣ sint v - n := by
      rw [Int.bmod_eq_iff (by decide)]
      constructor
      · rintro ⟨-, -, hdvd⟩
        exact hdvd
      · exact fun hdvd => ⟨by omega, by omega, hdvd⟩
    _ ↔ (sint v - n) % 2 ^ 32 = 0 := Int.dvd_iff_emod_eq_zero

/-! ### `floorDiv` -/

theorem floorDiv_neg_neg (a b : Int) : floorDiv (-a) (-b) = floorDiv a b := Int.neg_fdiv_neg a b

/-- For a positive divisor, `floorDiv` is adjoint to multiplication by it. -/
theorem le_floorDiv_iff_of_pos {b : Int} (hb : 0 < b) (a q : Int) : q ≤ floorDiv a b ↔ q * b ≤ a := by
  rw [floorDiv, Int.fdiv_eq_ediv_of_nonneg a hb.le]
  exact Int.le_ediv_iff_mul_le hb

/-- For a negative divisor the inequality on the products turns round: negate dividend and divisor. -/
theorem le_floorDiv_iff_of_neg {b : Int} (hb : b < 0) (a q : Int) : q ≤ floorDiv a b ↔ a ≤ q * b := by
  rw [← floorDiv_neg_neg, le_floorDiv_iff_of_pos (Int.neg_pos_of_neg hb), mul_neg, neg_le_neg_iff]

/-- Settles O14: the two readings are `sint_range` and `sint_eq`, the congruence is `eq_wrap32_iff`. -/
theorem wrapIsTheUniqueCongruentWord : Obligations.WrapIsTheUniqueCongruentWord := by
  unfold Obligations.WrapIsTheUniqueCongruentWord
  refine ⟨fun v => ?_, eq_wrap32_iff⟩
  obtain ⟨hlo, hhi⟩ := sint_range v
  exact ⟨hlo, hhi, sint_eq v⟩

/-- Settles O15: for each sign of `b` the adjunction, taken at `floorDiv a b` itself, bounds its product, and taken at
any other `q` makes it the greatest. -/
theorem floorDivIsTheGreatestQuotient : Obligations.FloorDivIsTheGreatestQuotient := by
  unfold Obligations.FloorDivIsTheGreatestQuotient
  refine fun a b => ⟨fun hb => ?_, fun hb => ?_⟩
  · have hle := le_floorDiv_iff_of_pos hb a
    exact ⟨(hle _).mp le_rfl, fun q => (hle q).mpr⟩
  · have hle := le_floorDiv_iff_of_neg hb a
    exact ⟨(hle _).mp le_rfl, fun q => (hle q).mpr⟩

end Sys2Proof.Machine
end

section
/-! PROOFS. The state (10_state): what an instruction leaves of it, the invariant every transition keeps, and what the
host reads of it. -/

namespace Sys2Proof.Machine

/-! ### The five shapes of an instruction's next state -/

/-- The instructions that have `r` as their destination (R14). -/
def HasDestination (i : Instr) (r : Reg) : Prop :=
  (∃ v, i = .load r v) ∨ (∃ v, i = .loadm r v) ∨ (∃ q, i = .add r q) ∨ (∃ q, i = .sub r q) ∨
    (∃ q, i = .mul r q) ∨ (∃ q, i = .div r q)

/-- What `ExecutesTo` leaves when only the place written and its writer are kept: the step continues after at most one
write of a register, a data-memory word or EQ, or it is a halt entry. -/
inductive LeavesOneWrite (s : State) (i : Instr) : State → Prop where
  | register (r : Reg) (v : Word) (hi : HasDestination i r) :
      LeavesOneWrite s i ((s.setReg r v).continueAt s.pcNext)
  | memory (a : DmemAddr) (v : Word) (hi : ∃ rs addr, i = .store rs addr) :
      LeavesOneWrite s i ((s.memWrite a v).continueAt s.pcNext)
  | flag (v : Bool) (hi : ∃ ra rb, i = .cmp ra rb) : LeavesOneWrite s i ((s.setEq v).continueAt s.pcNext)
  | pcOnly (n : Word) (hn : n = s.pcNext ∨ 0 ≤ sint n) : LeavesOneWrite s i (s.continueAt n)
  | haltEntry (c : Cause) (w : InsnWord) (hw : (∃ k, c = .runtimeError k) ∨ w = s.errInsn) :
      LeavesOneWrite s i (s.haltEntry c w)

theorem LeavesOneWrite.raise {s : State} {i : Instr} (k : ErrorKind) (w : InsnWord) :
    LeavesOneWrite s i (s.raise k w) := .haltEntry _ w (.inl ⟨k, rfl⟩)

theorem ExecutesTo.leavesOneWrite {s t : State} {i : Instr} (h : ExecutesTo s i t) : LeavesOneWrite s i t := by
  cases h with
  | load rd imm => exact .register rd imm (.inl ⟨imm, rfl⟩)
  | loadm rd addr a => exact .register rd _ (.inr (.inl ⟨addr, rfl⟩))
  | store rs addr a => exact .memory a _ ⟨rs, addr, rfl⟩
  | add rd rs => exact .register rd _ (.inr (.inr (.inl ⟨rs, rfl⟩)))
  | sub rd rs => exact .register rd _ (.inr (.inr (.inr (.inl ⟨rs, rfl⟩))))
  | mul rd rs => exact .register rd _ (.inr (.inr (.inr (.inr (.inl ⟨rs, rfl⟩)))))
  | div rd rs => exact .register rd _ (.inr (.inr (.inr (.inr (.inr ⟨rs, rfl⟩)))))
  | cmp ra rb => exact .flag _ ⟨ra, rb, rfl⟩
  | jmp _ hn | jeTaken _ _ hn | jneTaken _ _ hn => exact .pcOnly _ (.inr hn)
  | jeNotTaken | jneNotTaken => exact .pcOnly _ (.inl rfl)
  | loadmOutside | storeOutside | divByZero | jmpNegative | jeNegative | jneNegative => exact .raise _ _
  | halt => exact .haltEntry _ _ (.inr rfl)

/-- An instruction that answers leaves one of the five shapes. -/
theorem exec_leavesOneWrite {i : Instr} {s t : State} (h : exec i s = .next t) : LeavesOneWrite s i t :=
  (exec_cases h).leavesOneWrite

theorem State.memWrite_sameControl (s : State) (a : DmemAddr) (v : Word) : SameControl s (s.memWrite a v) :=
  ⟨rfl, rfl, rfl, rfl, rfl, rfl⟩

theorem State.setEq_sameControl (s : State) (v : Bool) : SameControl s (s.setEq v) := ⟨rfl, rfl, rfl, rfl, rfl, rfl⟩

/-! ### The invariant -/

theorem imemDepth_lt : Config.imemDepth < 2 ^ 31 := Nat.succ_lt_succ Config.imemDepthLessOne.isLt

theorem halted_of_status {s : State} {c : Cause} (h : s.status = haltedStatus c) : s.halted = true := by
  rw [State.halted, h, haltedStatus_getLsbD_zero]

/-- In a running state that meets the invariant STATUS is 0. -/
theorem Inv.status_of_running {s : State} (hi : Inv s) (h : s.halted = false) : s.status = 0 := by
  rcases hi.statusLegal with h0 | ⟨c, hc⟩
  · exact h0
  · exact absurd (halted_of_status hc) (Bool.eq_false_iff.mp h)

/-- Where STATUS is 0 no error has been recorded. -/
theorem Inv.errInsn_of_status {s : State} (hi : Inv s) (h : s.status = 0) : s.errInsn = 0 := by
  by_contra he
  obtain ⟨k, hk⟩ := hi.errInsnOnError he
  exact absurd (halted_of_status hk) (by simp [State.halted, h])

theorem inv_reset : Inv State.reset where
  dmemWf := Memory.wf_nil
  imemRising := rfl
  imemInStore := nofun
  progFits := Nat.zero_le _
  pcBound := by decide
  statusLegal := .inl rfl
  errInsnOnError := fun h => absurd rfl h
  strobeRunning := nofun

/-- A reset edge keeps the program store and N and puts every other place at its reset value. -/
theorem Inv.resetEdge {s : State} (hi : Inv s) : Inv s.resetEdge :=
  { inv_reset with
    imemRising := hi.imemRising
    imemInStore := hi.imemInStore
    progFits := hi.progFits }

/-- Halt entry keeps the invariant when it records a word for an error only. -/
theorem Inv.haltEntry {s : State} (hi : Inv s) {c : Cause} {w : InsnWord}
    (hw : (∃ k, c = .runtimeError k) ∨ w = 0) : Inv (s.haltEntry c w) :=
  { hi with
    statusLegal := .inr ⟨c, rfl⟩
    errInsnOnError := fun hne => by
      obtain ⟨k, rfl⟩ := hw.resolve_right hne
      exact ⟨k, rfl⟩
    strobeRunning := nofun }

/-- A continuing step keeps the invariant when the data memory and the PC it leaves do. -/
theorem Inv.continued {s t : State} (hi : Inv s) (hs : s.status = 0) (h : Continued s t)
    (hd : t.dmem.wf = true) (hp : uint t.pc < 2 ^ 31) : Inv t where
  dmemWf := hd
  imemRising := h.control.imem ▸ hi.imemRising
  imemInStore := h.control.imem ▸ hi.imemInStore
  progFits := h.control.progLen ▸ hi.progFits
  pcBound := Nat.le_sub_one_of_lt hp
  statusLegal := .inl (h.control.status.trans hs)
  errInsnOnError := fun hne => absurd (h.control.errInsn.trans (hi.errInsn_of_status hs)) hne
  strobeRunning := fun _ => h.control.status.trans hs

/-- Below N the next PC in order stays below 2^31, since N fits the store (R18). -/
theorem Inv.pcNext_lt {s : State} (hi : Inv s) (h : uint s.pc < uint s.progLen) : uint s.pcNext < 2 ^ 31 := by
  have hdepth := imemDepth_lt
  have hfits := hi.progFits
  have hval : uint s.pcNext = (uint s.pc + 1) % 2 ^ 32 := BitVec.toNat_add ..
  omega

theorem Inv.executed {s t : State} {i : Instr} (hi : Inv s) (hs : Stepping s)
    (hp : uint s.pc < uint s.progLen) (hx : LeavesOneWrite s i t) : Inv t := by
  have h0 := hi.status_of_running hs.running
  have hnext := hi.pcNext_lt hp
  cases hx with
  | register r v =>
    exact hi.continued h0 (State.continueAt_continued (s.setReg_sameControl r v) _) (by simpa using hi.dmemWf) hnext
  | memory a v =>
    exact hi.continued h0 (State.continueAt_continued (s.memWrite_sameControl a v) _)
      (Memory.wf_write hi.dmemWf a v) hnext
  | flag v =>
    exact hi.continued h0 (State.continueAt_continued (s.setEq_sameControl v) _) hi.dmemWf hnext
  | pcOnly n hn =>
    refine hi.continued h0 (State.continueAt_continued (.refl s) n) hi.dmemWf ?_
    rcases hn with rfl | hn
    · exact hnext
    · exact (uint_of_sint_nonneg hn).2
  | haltEntry c w hw => exact hi.haltEntry (hw.imp_right (·.trans (hi.errInsn_of_status h0)))

/-- Settles O58, by the cases of a transition; `Inv.executed` is the case of an instruction. -/
theorem everyStepKeepsTheInvariant : Obligations.EveryStepKeepsTheInvariant := by
  unfold Obligations.EveryStepKeepsTheInvariant
  intro s t hi h
  cases step_cases h with
  | resetEdge => exact hi.resetEdge
  | halted => exact hi
  | endOfProgram hs => exact hi.haltEntry (.inr (hi.errInsn_of_status (hi.status_of_running hs.running)))
  | decodeError hs hp w hw e => exact hi.haltEntry (.inl ⟨decodeErrorKind e, rfl⟩)
  | executed hs hp w hw i hd _ hx => exact hi.executed hs hp hx.leavesOneWrite

/-- Settles O59: `inv_reset`. -/
theorem resetMeetsTheInvariant : Obligations.ResetMeetsTheInvariant := by
  unfold Obligations.ResetMeetsTheInvariant
  exact inv_reset

end Sys2Proof.Machine
end

section
/-! PROOFS. The state (10_state): who writes the registers, EQ and the program, and who sees them. -/

namespace Sys2Proof.Machine

/-! ### Writers -/

/-- Settles O34, over the shapes of the next state: only the first changes a register, and only the last changes
whether the machine is halted. -/
theorem registersChangeOnlyAsDestinations : Obligations.RegistersChangeOnlyAsDestinations := by
  unfold Obligations.RegistersChangeOnlyAsDestinations
  constructor
  · intro i s t r h hne
    cases exec_leavesOneWrite h with
    | register rd v hi =>
      have hr : r = rd := by
        by_contra hr
        exact hne (by simp [hr])
      exact hr ▸ hi
    | memory | flag | pcOnly | haltEntry => exact absurd (by simp) hne
  · intro i s t h hs ht
    cases exec_leavesOneWrite h with
    | register | memory | flag | pcOnly => simp [hs] at ht
    | haltEntry c w => exact fun r => s.haltEntry_reg c w r

/-- Only CMP changes EQ (R19). -/
theorem cmp_of_exec_eq_ne {i : Instr} {s t : State} (h : exec i s = .next t) (hne : t.eq ≠ s.eq) :
    ∃ ra rb, i = .cmp ra rb := by
  cases exec_leavesOneWrite h with
  | flag v hi => exact hi
  | register | memory | pcOnly | haltEntry => exact absurd (by simp) hne

/-- The program store, N and the input pins are as they were. -/
structure SameProgram (s t : State) : Prop where
  imem : t.imem = s.imem
  progLen : t.progLen = s.progLen
  rst : t.rst = s.rst
  progLenPin : t.progLenPin = s.progLenPin

theorem LeavesOneWrite.sameProgram {s t : State} {i : Instr} (h : LeavesOneWrite s i t) : SameProgram s t := by
  cases h with
  | register => constructor <;> simp
  | memory | flag | pcOnly | haltEntry => exact ⟨rfl, rfl, rfl, rfl⟩

theorem step_sameProgram {s t : State} (h : step s = .next t) : SameProgram s t := by
  cases step_cases h with
  | resetEdge | halted | endOfProgram | decodeError => exact ⟨rfl, rfl, rfl, rfl⟩
  | executed _ _ _ _ _ _ _ hx => exact hx.leavesOneWrite.sameProgram

/-- Settles O37: `step_sameProgram`. -/
theorem noStepWritesTheProgram : Obligations.NoStepWritesTheProgram := by
  unfold Obligations.NoStepWritesTheProgram
  intro s t h
  obtain ⟨himem, hlen, hrst, hpin⟩ := step_sameProgram h
  exact ⟨himem, hlen, hrst, hpin⟩

/-! ### Readers

A part of the state is invisible to an instruction when overwriting that part before it runs gives what overwriting it
after does. -/

/-- `f` overwrites a part of the state that the updates of an instruction neither read nor write, EQ aside. -/
structure ActsApart (f : State → State) : Prop where
  reg : ∀ s r, (f s).reg r = s.reg r
  pc : ∀ s, (f s).pc = s.pc
  errInsn : ∀ s, (f s).errInsn = s.errInsn
  memRead : ∀ s a, (f s).memRead a = s.memRead a
  setReg : ∀ s r v, (f s).setReg r v = f (s.setReg r v)
  memWrite : ∀ s a v, (f s).memWrite a v = f (s.memWrite a v)
  continueAt : ∀ s n, (f s).continueAt n = f (s.continueAt n)
  haltEntry : ∀ s c w, (f s).haltEntry c w = f (s.haltEntry c w)

namespace ActsApart

variable {f : State → State}

theorem pcNext (hf : ActsApart f) (s : State) : (f s).pcNext = s.pcNext := congrArg (· + 1) (hf.pc s)

theorem raise (hf : ActsApart f) (s : State) (k : ErrorKind) (w : InsnWord) : (f s).raise k w = f (s.raise k w) :=
  hf.haltEntry s _ w

theorem stopNormal (hf : ActsApart f) (s : State) : (f s).stopNormal = f s.stopNormal := by
  simp only [State.stopNormal, hf.haltEntry, hf.errInsn]

theorem aluWrite (hf : ActsApart f) (s : State) (op : Int → Int → Int) (rd rs : Reg) :
    (f s).aluWrite op rd rs = f (s.aluWrite op rd rs) := by
  simp only [State.aluWrite, hf.reg, hf.setReg, hf.pcNext, hf.continueAt]

theorem takeJump (hf : ActsApart f) (s : State) (target : Word) (w : InsnWord) :
    (f s).takeJump target w = f (s.takeJump target w) := by
  rcases lt_or_ge (sint target) 0 with h | h
  · simp only [State.takeJump_of_neg _ h, hf.raise]
  · simp only [State.takeJump_of_nonneg _ h, hf.continueAt]

/-- Such a part of the state is invisible to every instruction, if JE and JNE find EQ as it was and CMP can write it. -/
theorem exec (hf : ActsApart f) (i : Instr) (s : State)
    (hread : (f s).eq = s.eq ∨ (∀ x, i ≠ .je x) ∧ (∀ x, i ≠ .jne x))
    (hwrite : (∀ v, (f s).setEq v = f (s.setEq v)) ∨ ∀ ra rb, i ≠ .cmp ra rb) :
    Machine.exec i (f s) = mapNext f (Machine.exec i s) := by
  cases i with
  | load rd imm => simp only [Machine.exec, execLoad, mapNext, hf.setReg, hf.pcNext, hf.continueAt]
  | loadm rd addr =>
    cases ha : dmemAddr? addr with
    | none => simp only [Machine.exec, execLoadm, ha, mapNext, hf.raise]
    | some a =>
      simp only [Machine.exec, execLoadm, ha, mapNext, hf.memRead, hf.setReg, hf.pcNext, hf.continueAt]
  | store rs addr =>
    cases ha : dmemAddr? addr with
    | none => simp only [Machine.exec, execStore, ha, mapNext, hf.raise]
    | some a => simp only [Machine.exec, execStore, ha, mapNext, hf.reg, hf.memWrite, hf.pcNext, hf.continueAt]
  | add | sub | mul => exact congrArg Host.Outcome.next (hf.aluWrite s _ _ _)
  | div rd rs =>
    simp only [Machine.exec, execDiv, hf.reg, hf.raise, hf.aluWrite]
    split <;> rfl
  | cmp ra rb =>
    have hw := hwrite.resolve_right fun h => h ra rb rfl
    simp only [Machine.exec, execCmp, mapNext, hf.reg, hw, hf.pcNext, hf.continueAt]
  | jmp target => exact congrArg Host.Outcome.next (hf.takeJump s target _)
  | je target =>
    have hr := hread.resolve_right fun h => h.1 target rfl
    simp only [Machine.exec, execJe, mapNext, hr, hf.takeJump, hf.pcNext, hf.continueAt, apply_ite f]
  | jne target =>
    have hr := hread.resolve_right fun h => h.2 target rfl
    simp only [Machine.exec, execJne, mapNext, hr, hf.takeJump, hf.pcNext, hf.continueAt, apply_ite f]
  | halt => exact congrArg Host.Outcome.next (hf.stopNormal s)

end ActsApart

theorem actsApart_setEq (v : Bool) : ActsApart (State.setEq · v) where
  reg s r := s.setEq_reg v r
  pc _ := rfl
  errInsn _ := rfl
  memRead _ _ := rfl
  setReg _ r _ := by cases r <;> rfl
  memWrite _ _ _ := rfl
  continueAt _ _ := rfl
  haltEntry _ _ _ := rfl

/-- CMP overwrites EQ, so what EQ held before it leaves no trace. -/
theorem exec_cmp_setEq (ra rb : Reg) (s : State) (v : Bool) : exec (.cmp ra rb) (s.setEq v) = exec (.cmp ra rb) s := by
  simp only [exec, execCmp, State.setEq_reg]; rfl

/-- Settles O35: `cmp_of_exec_eq_ne` for the writer. For the readers, clearing EQ after an instruction other than CMP is
clearing it before, when the value it had is lost. -/
theorem onlyCmpWritesEqAndOnlyJumpsReadIt : Obligations.OnlyCmpWritesEqAndOnlyJumpsReadIt := by
  unfold Obligations.OnlyCmpWritesEqAndOnlyJumpsReadIt
  refine ⟨fun i s t => cmp_of_exec_eq_ne, fun i s v hje hjne => ?_⟩
  by_cases hcmp : ∃ ra rb, i = .cmp ra rb
  · obtain ⟨ra, rb, rfl⟩ := hcmp
    rw [exec_cmp_setEq]
  · have hcmp : ∀ ra rb, i ≠ .cmp ra rb := fun ra rb h => hcmp ⟨ra, rb, h⟩
    have hclear (u : State) : exec i (u.setEq false) = mapNext (State.setEq · false) (exec i u) :=
      (actsApart_setEq false).exec i u (.inr ⟨hje, hjne⟩) (.inr hcmp)
    calc mapNext (State.setEq · false) (exec i (s.setEq v))
        = exec i ((s.setEq v).setEq false) := (hclear _).symm
      _ = exec i (s.setEq false) := rfl
      _ = mapNext (State.setEq · false) (exec i s) := hclear s

/-- The state with another program store. -/
def State.withImem (m : ProgramStore) (s : State) : State := { s with imem := m }

theorem actsApart_withImem (m : ProgramStore) : ActsApart (State.withImem m) where
  reg _ r := by cases r <;> rfl
  pc _ := rfl
  errInsn _ := rfl
  memRead _ _ := rfl
  setReg _ r _ := by cases r <;> rfl
  memWrite _ _ _ := rfl
  continueAt _ _ := rfl
  haltEntry _ _ _ := rfl

/-- No instruction sees the program store. -/
theorem exec_withImem (m : ProgramStore) (i : Instr) (s : State) :
    exec i (s.withImem m) = mapNext (State.withImem m) (exec i s) :=
  (actsApart_withImem m).exec i s (.inl rfl) (.inl fun _ => rfl)

/-- The fetch sees no program word but the one at the PC, and that only below N (R81). -/
theorem fetch_withImem {s : State} {m : ProgramStore}
    (hm : uint s.pc < uint s.progLen → cellAt (uint s.pc) m = cellAt (uint s.pc) s.imem) :
    fetch (s.withImem m) = fetch s := by
  rcases Nat.lt_or_ge (uint s.pc) (uint s.progLen) with hp | hp
  · have hword : (s.withImem m).ifetch (uint s.pc) = s.ifetch (uint s.pc) := hm hp
    cases hw : s.ifetch (uint s.pc) with
    | none => rw [fetch_eq_notLoaded.mpr ⟨hp, hw⟩]; exact fetch_eq_notLoaded.mpr ⟨hp, hword.trans hw⟩
    | some w => rw [fetch_eq_word.mpr ⟨hp, hw⟩]; exact fetch_eq_word.mpr ⟨hp, hword.trans hw⟩
  · rw [fetch_eq_endOfProgram.mpr hp]; exact fetch_eq_endOfProgram.mpr hp

theorem step_withImem {s : State} {m : ProgramStore}
    (hm : uint s.pc < uint s.progLen → cellAt (uint s.pc) m = cellAt (uint s.pc) s.imem) :
    step (s.withImem m) = mapNext (State.withImem m) (step s) := by
  by_cases hr : s.rst = true
  · rw [step_of_reset hr]; exact step_of_reset (s := s.withImem m) hr
  have hr := Bool.eq_false_iff.mpr hr
  by_cases hh : s.halted = true
  · rw [step_of_halted hr hh]; exact step_of_halted (s := s.withImem m) hr hh
  have hh := Bool.eq_false_iff.mpr hh
  rw [step_of_fetch ⟨hr, hh⟩, step_of_fetch (s := s.withImem m) ⟨hr, hh⟩, fetch_withImem hm]
  cases fetch s with
  | endOfProgram | notLoaded => rfl
  | word w =>
    cases hd : decode w with
    | error e => simp only [hd]; rfl
    | insn i => simp only [hd]; exact exec_withImem m i s

/-- Settles O45: `step_withImem`. -/
theorem onlyTheWordAtThePcMatters : Obligations.OnlyTheWordAtThePcMatters := by
  unfold Obligations.OnlyTheWordAtThePcMatters
  exact fun s m hm => step_withImem hm

end Sys2Proof.Machine
end

section
/-! PROOFS. What the host reads of the state: STATUS and its companions, the dump and the ports, the trace; and what
reset leaves. -/

namespace Sys2Proof.Machine

/-! ### STATUS, the PC and ERR_INSN under the invariant -/

/-- The causes have codes 1 to 8 (R115). -/
theorem causeCode_range (c : Cause) : 1 ≤ (causeCode c).toNat ∧ (causeCode c).toNat ≤ 8 := by
  rcases c with _ | _ | k
  · decide
  · decide
  · cases k <;> decide

/-- The errors have codes from 3 (R115). -/
theorem three_le_errorCode (k : ErrorKind) : 3 ≤ (errorCode k).toNat := by
  cases k <;> decide

/-- The reserved bits of a halted STATUS are 0 (R21). -/
theorem haltedStatus_reserved (c : Cause) {i : Nat} (hi : (1 ≤ i ∧ i ≤ 3) ∨ 8 ≤ i) :
    (haltedStatus c).getLsbD i = false := by
  have hone : (1 : BitVec 32).getLsbD i = false := by
    rw [BitVec.ofNat_eq_ofNat, BitVec.getLsbD_one, decide_eq_false (show i ≠ 0 by omega), Bool.and_false]
  have hcode : ((causeCode c).setWidth 32 <<< 4).getLsbD i = false := by
    rw [BitVec.getLsbD_shiftLeft]
    rcases hi with hi | hi
    · simp [show i < 4 by omega]
    · simp [show 4 ≤ i - 4 by omega]
  rw [haltedStatus_eq, BitVec.getLsbD_or, hone, hcode, Bool.or_false]

theorem Inv.pc_sign {s : State} (hi : Inv s) : s.pc.getLsbD 31 = false :=
  Nat.testBit_lt_two_pow (Nat.lt_of_le_of_lt hi.pcBound (by decide))

/-- Settles O60, for STATUS 0 and for a halted STATUS; ERR_INSN is nonzero only in the second, after an error. -/
theorem invariantGivesTheStatusRules : Obligations.InvariantGivesTheStatusRules := by
  unfold Obligations.InvariantGivesTheStatusRules
  intro s hi
  rcases hi.statusLegal with h0 | ⟨c, hc⟩
  · have herr := hi.errInsn_of_status h0
    refine ⟨?_, ?_, ?_, hi.pc_sign, fun he => absurd herr he⟩ <;> simp [State.halted, State.cause, h0]
  · have hcause : s.cause = causeCode c := by rw [State.cause, hc, haltedStatus_cause]
    obtain ⟨hlo, hhi⟩ := causeCode_range c
    have hne : causeCode c ≠ 0 := fun h => by simp [h] at hlo
    rw [hcause]
    refine ⟨iff_of_true (halted_of_status hc) hne, hhi, fun i => hc ▸ haltedStatus_reserved c, hi.pc_sign, ?_⟩
    intro he
    obtain ⟨k, hk⟩ := hi.errInsnOnError he
    have hcode : causeCode c = errorCode k := hcause.symm.trans (by rw [State.cause, hk, haltedStatus_cause]; rfl)
    exact hcode ▸ three_le_errorCode k

/-! ### The dump and the ports -/

theorem dump_mem_getElem? (s : State) {a : DmemAddr} (h : a.val < Config.dumpMem) :
    s.dump.mem[a.val]? = some (s.memRead a) := by
  simp [State.dump, State.obsMem, h]

/-- Settles O49: the memory words are `dump_mem_getElem?`, the rest are the definitions of the views. -/
theorem outputPortsShowTheState : Obligations.OutputPortsShowTheState := by
  unfold Obligations.OutputPortsShowTheState
  refine ⟨fun s => ?_, rfl, rfl, rfl, rfl, rfl, rfl, rfl, rfl⟩
  exact ⟨rfl, rfl, rfl, rfl, rfl, rfl, by simp [State.dump], fun a ha => dump_mem_getElem? s ha,
    rfl, rfl, rfl, rfl, rfl, rfl⟩

/-- The data-memory word that a valid address names: its unsigned reading (R41). -/
theorem exists_dmemAddr {addr : Word} (hlo : 0 ≤ sint addr) (hhi : sint addr ≤ 255) :
    ∃ a : DmemAddr, sint addr = (a.val : Int) ∧ a.val = uint addr := by
  obtain ⟨huint, -⟩ := uint_of_sint_nonneg hlo
  exact ⟨⟨uint addr, show uint addr < 256 by omega⟩, huint.symm, rfl⟩

/-- A STORE to a valid address writes that word (R100). -/
theorem exec_store_of_valid {addr : Word} {a : DmemAddr} (h : sint addr = (a.val : Int)) (rs : Reg) (s : State) :
    exec (.store rs addr) s = .next ((s.memWrite a (s.reg rs)).continueAt s.pcNext) := by
  simp only [exec, execStore, dmemAddr?_eq_some.mpr h]

/-- The data-memory words of the dump after a write: the word's place, when it has one, takes the value. -/
theorem dump_mem_memWrite (s : State) (a : DmemAddr) (v : Word) :
    (s.memWrite a v).dump.mem = s.dump.mem.set a.val v := by
  refine List.ext_getElem (by simp [State.dump]) fun k hk _ => ?_
  simp only [State.dump, List.getElem_set, List.getElem_map, State.obsMem, State.memWrite_memRead, Memory.read_write]
  simp [Fin.ext_iff, eq_comm, State.memRead]

theorem dump_store (s : State) (a : DmemAddr) (v n : Word) :
    ((s.memWrite a v).continueAt n).dump = { s.dump with pc := n, mem := s.dump.mem.set a.val v } := by
  rw [← dump_mem_memWrite]; rfl

/-- Settles O50, by `dump_store`: from address 10 on the word has no place in the dump. -/
theorem storeShowsInTheDumpOnlyBelowTen : Obligations.StoreShowsInTheDumpOnlyBelowTen := by
  unfold Obligations.StoreShowsInTheDumpOnlyBelowTen
  refine fun rs addr s => ⟨fun hlo hhi => ?_, fun hlo hhi => ?_⟩
  · obtain ⟨a, ha, haddr⟩ := exists_dmemAddr (addr := addr) (by omega) hhi
    have hplace : s.dump.mem.set a.val (s.reg rs) = s.dump.mem :=
      List.set_eq_of_length_le (by simp [State.dump, Config.dumpMem]; omega)
    exact ⟨_, exec_store_of_valid ha rs s, by rw [dump_store, hplace]; rfl⟩
  · obtain ⟨a, ha, haddr⟩ := exists_dmemAddr hlo (by omega)
    exact ⟨_, exec_store_of_valid ha rs s, by rw [dump_store, haddr]; rfl⟩

/-! ### The trace -/

theorem run_of_halted {s : State} (hr : s.rst = false) (hh : s.halted = true) (k : Nat) :
    Host.Core.run core k s = .next s := by
  induction k with
  | zero => rfl
  | succ k ih => rw [run_succ, step_of_halted hr hh]; exact ih

/-- A run that is Running after `j + 1` steps was so after the first. -/
theorem continuesTo_of_run {s t : State} {j : Nat} (hr : s.rst = false)
    (h : Host.Core.run core (j + 1) s = .next t) (ht : t.halted = false) :
    ∃ u, continuesTo s = some u ∧ u.rst = false ∧ Host.Core.run core j u = .next t := by
  rw [run_succ] at h
  cases hs : step s with
  | fault | refused => rw [hs] at h; cases h
  | next u =>
    rw [hs] at h
    have hur : u.rst = false := (step_sameProgram hs).rst.trans hr
    have huh : u.halted = false := by
      by_contra hu
      rw [Bool.not_eq_false] at hu
      have htu := (run_of_halted hur hu j).symm.trans h
      cases htu
      rw [hu] at ht
      cases ht
    exact ⟨u, by simp [continuesTo, hs, hr, huh], hur, h⟩

theorem trace_succ_of_continues {s u : State} (h : continuesTo s = some u) (k : Nat) :
    trace (k + 1) s = u.dump :: trace k u := by
  simp only [trace, h]

theorem continuesTo_of_halted {s : State} (h : s.halted = true) : continuesTo s = none := by
  cases hr : s.rst with
  | true => simp [continuesTo, step_of_reset hr, hr]
  | false => simp [continuesTo, step_of_halted hr h, h]

theorem trace_of_halted {s : State} (h : s.halted = true) (k : Nat) : trace k s = [] := by
  cases k with
  | zero => rfl
  | succ k => simp only [trace, continuesTo_of_halted h]

/-- While the run is Running, each step adds one record, and the trace goes on from the state reached. -/
theorem trace_of_run {s t : State} {j : Nat} (k : Nat) (hr : s.rst = false)
    (h : Host.Core.run core j s = .next t) (ht : t.halted = false) :
    (trace j s).length = j ∧ trace (j + k) s = trace j s ++ trace k t := by
  induction j generalizing s with
  | zero =>
    rw [run_zero] at h
    cases h
    exact ⟨rfl, by rw [Nat.zero_add]; rfl⟩
  | succ j ih =>
    obtain ⟨u, hu, hur, hrun⟩ := continuesTo_of_run hr h ht
    obtain ⟨hlen, happend⟩ := ih hur hrun
    rw [Nat.succ_add, trace_succ_of_continues hu, trace_succ_of_continues hu]
    exact ⟨congrArg (· + 1) hlen, congrArg (u.dump :: ·) happend⟩

/-- Settles O51: `trace_of_run` and `trace_of_halted`. -/
theorem traceHoldsOneRecordPerContinuingStep : Obligations.TraceHoldsOneRecordPerContinuingStep := by
  unfold Obligations.TraceHoldsOneRecordPerContinuingStep
  exact ⟨fun s t j k => trace_of_run k, fun s k h => trace_of_halted h k⟩

/-! ### Reset -/

/-- Settles O53: a reset edge and a release from 1 both leave `resetEdge`'s values, and a release from 0 leaves the
state. -/
theorem resetGivesTheResetValues : Obligations.ResetGivesTheResetValues := by
  unfold Obligations.ResetGivesTheResetValues
  refine ⟨fun s h => ?_, fun s h hn => ?_, fun s => hostReleaseReset_of_low⟩
  · exact ⟨s.resetEdge, step_of_reset h, s.resetEdge_reg, rfl, rfl, rfl, fun _ => rfl, rfl, rfl, rfl, rfl, h⟩
  · refine ⟨_, hostReleaseReset_of_high h hn, rfl, rfl, rfl, fun r => ?_, rfl, rfl, rfl, fun _ => rfl, rfl, rfl, rfl⟩
    cases r <;> rfl

end Sys2Proof.Machine
end

section
/-! PROOFS. The data memory (20_memory): the address check that LOADM and STORE share, who writes the data memory and
who sees it, and the byte image of a program. -/

namespace Sys2Proof.Machine

/-! ### LOADM and STORE by their address (R41)

A STORE to a valid address is `exec_store_of_valid`. -/

theorem exec_loadm_of_valid {addr : Word} {a : DmemAddr} (h : sint addr = (a.val : Int)) (rd : Reg) (s : State) :
    exec (.loadm rd addr) s = .next ((s.setReg rd (s.memRead a)).continueAt s.pcNext) := by
  simp only [exec, execLoadm, dmemAddr?_eq_some.mpr h]

theorem exec_loadm_of_outside {addr : Word} (h : sint addr < 0 ∨ 255 < sint addr) (rd : Reg) (s : State) :
    exec (.loadm rd addr) s = .next (s.raise .invalidMemoryAddress (encode (.loadm rd addr))) := by
  simp only [exec, execLoadm, dmemAddr?_eq_none.mpr h]

theorem exec_store_of_outside {addr : Word} (h : sint addr < 0 ∨ 255 < sint addr) (rs : Reg) (s : State) :
    exec (.store rs addr) s = .next (s.raise .invalidMemoryAddress (encode (.store rs addr))) := by
  simp only [exec, execStore, dmemAddr?_eq_none.mpr h]

/-- Settles O32, for a valid and for an invalid address, each with the two instructions that make the check. -/
theorem dmemAddressCheckIsExact : Obligations.DmemAddressCheckIsExact := by
  unfold Obligations.DmemAddressCheckIsExact
  refine fun i r imm s hi => ⟨fun ⟨hlo, hhi⟩ => ?_, fun hinvalid => ?_⟩
  · obtain ⟨a, ha, -⟩ := exists_dmemAddr hlo hhi
    rcases hi with rfl | rfl
    · exact ⟨_, exec_loadm_of_valid ha r s, by simp⟩
    · exact ⟨_, exec_store_of_valid ha r s, rfl⟩
  · have hout : sint imm < 0 ∨ 255 < sint imm := by omega
    rcases hi with rfl | rfl
    · exact ⟨_, exec_loadm_of_outside hout r s, s.raise_haltedFrom _ _⟩
    · exact ⟨_, exec_store_of_outside hout r s, s.raise_haltedFrom _ _⟩

/-- Settles O47: the LOADM reads the memory the STORE wrote (`Memory.read_write_same`), and only Rd and the PC differ
from what the STORE left. -/
theorem storeThenLoadmGivesTheValue : Obligations.StoreThenLoadmGivesTheValue := by
  unfold Obligations.StoreThenLoadmGivesTheValue
  intro rs rd addr s hlo hhi
  obtain ⟨a, ha, -⟩ := exists_dmemAddr hlo hhi
  refine ⟨_, _, exec_store_of_valid ha rs s, exec_loadm_of_valid ha rd _, by simp, fun r hr => by simp [hr], ?_,
    fun x => by simp⟩
  exact BitVec.add_assoc s.pc 1 1

/-! ### Who writes the data memory and who sees it (R44) -/

/-- Only STORE changes the data memory. -/
theorem store_of_exec_dmem_ne {i : Instr} {s t : State} (h : exec i s = .next t) (hne : t.dmem ≠ s.dmem) :
    ∃ rs addr, i = .store rs addr := by
  cases exec_leavesOneWrite h with
  | memory a v hi => exact hi
  | register | flag | pcOnly | haltEntry => exact absurd (by simp) hne

/-- The state with another data memory. -/
def State.withDmem (m : Memory) (s : State) : State := { s with dmem := m }

@[simp] theorem State.withDmem_reg (m : Memory) (s : State) (r : Reg) : (s.withDmem m).reg r = s.reg r := by
  cases r <;> rfl

theorem State.withDmem_setReg (m : Memory) (s : State) (r : Reg) (v : Word) :
    (s.withDmem m).setReg r v = (s.setReg r v).withDmem m := by
  cases r <;> rfl

theorem State.withDmem_aluWrite (m : Memory) (s : State) (op : Int → Int → Int) (rd rs : Reg) :
    (s.withDmem m).aluWrite op rd rs = (s.aluWrite op rd rs).withDmem m := by
  simp only [State.aluWrite, State.withDmem_reg, State.withDmem_setReg]; rfl

theorem State.withDmem_takeJump (m : Memory) (s : State) (target : Word) (w : InsnWord) :
    (s.withDmem m).takeJump target w = (s.takeJump target w).withDmem m := by
  rcases lt_or_ge (sint target) 0 with h | h
  · simp only [State.takeJump_of_neg _ h]; rfl
  · simp only [State.takeJump_of_nonneg _ h]; rfl

/-- An instruction other than LOADM and STORE does not see the data memory. -/
theorem exec_withDmem {i : Instr} (hloadm : ∀ r x, i ≠ .loadm r x) (hstore : ∀ r x, i ≠ .store r x) (m : Memory)
    (s : State) : exec i (s.withDmem m) = mapNext (State.withDmem m) (exec i s) := by
  cases i with
  | load rd imm => simp only [exec, execLoad, State.withDmem_setReg]; rfl
  | loadm rd addr => exact absurd rfl (hloadm rd addr)
  | store rs addr => exact absurd rfl (hstore rs addr)
  | add | sub | mul => exact congrArg Host.Outcome.next (s.withDmem_aluWrite m _ _ _)
  | div rd rs =>
    simp only [exec, execDiv, State.withDmem_reg, State.withDmem_aluWrite]
    split <;> rfl
  | cmp ra rb => simp only [exec, execCmp, State.withDmem_reg]; rfl
  | jmp target => exact congrArg Host.Outcome.next (s.withDmem_takeJump m target _)
  | je target | jne target =>
    simp only [exec, execJe, execJne, mapNext, State.withDmem_takeJump, apply_ite (State.withDmem m)]; rfl
  | halt => rfl

/-- STORE does not see the data memory but for overwriting a word of it. -/
theorem exec_store_withDmem (m : Memory) (rs : Reg) (addr : Word) (s : State) :
    mapNext (State.withDmem []) (exec (.store rs addr) (s.withDmem m)) =
      mapNext (State.withDmem []) (exec (.store rs addr) s) := by
  cases ha : dmemAddr? addr with
  | none => simp only [exec, execStore, ha]; rfl
  | some a => simp only [exec, execStore, ha]; rfl

/-- Where an instruction is no LOADM, what it leaves apart from the data memory does not depend on the data memory: for
an instruction other than STORE, clearing the memory after it is clearing it before. -/
theorem exec_eq_apart_from_dmem {i : Instr} (hloadm : ∀ r x, i ≠ .loadm r x) (m : Memory) (s : State) :
    mapNext (State.withDmem []) (exec i (s.withDmem m)) = mapNext (State.withDmem []) (exec i s) := by
  by_cases hstore : ∃ rs addr, i = .store rs addr
  · obtain ⟨rs, addr, rfl⟩ := hstore
    exact exec_store_withDmem m rs addr s
  · have hclear := exec_withDmem hloadm (fun rs addr h => hstore ⟨rs, addr, h⟩) []
    calc mapNext (State.withDmem []) (exec i (s.withDmem m))
        = exec i ((s.withDmem m).withDmem []) := (hclear _).symm
      _ = exec i (s.withDmem []) := rfl
      _ = mapNext (State.withDmem []) (exec i s) := hclear s

/-- The dump shows no data-memory word from 10 on (R30). -/
theorem dump_withDmem {s : State} {m : Memory}
    (h : ∀ a : DmemAddr, a.val < Config.dumpMem → m.read a = s.dmem.read a) : (s.withDmem m).dump = s.dump := by
  have hobs : (s.withDmem m).obsMem = s.obsMem := funext fun k => h _ k.isLt
  simp only [State.dump, State.withDmem_reg, hobs]; rfl

/-- Settles O36: `store_of_exec_dmem_ne`, `exec_eq_apart_from_dmem` and `dump_withDmem`. -/
theorem onlyStoreWritesAndOnlyLoadmReadsDmem : Obligations.OnlyStoreWritesAndOnlyLoadmReadsDmem := by
  unfold Obligations.OnlyStoreWritesAndOnlyLoadmReadsDmem
  exact ⟨fun i s t => store_of_exec_dmem_ne, fun i s m hloadm => exec_eq_apart_from_dmem hloadm m s,
    fun s m => dump_withDmem⟩

end Sys2Proof.Machine

namespace Sys2Proof

/-! ### The byte image (R47) -/

theorem imageOfWords_cons (w : InsnWord) (ws : List InsnWord) :
    imageOfWords (w :: ws) =
      byteOf w 0 :: byteOf w 1 :: byteOf w 2 :: byteOf w 3 :: byteOf w 4 :: byteOf w 5 :: byteOf w 6 :: byteOf w 7 ::
        imageOfWords ws := rfl

/-- A word is what its eight bytes make. -/
theorem wordOfBytes_byteOf (w : InsnWord) :
    wordOfBytes (byteOf w 0) (byteOf w 1) (byteOf w 2) (byteOf w 3) (byteOf w 4) (byteOf w 5) (byteOf w 6)
      (byteOf w 7) = w := by
  simp only [wordOfBytes, byteOf]
  apply BitVec.eq_of_getLsbD_eq
  intro i hi
  simp only [BitVec.getLsbD_append, BitVec.getLsbD_extractLsb']
  grind

theorem wordsOfImage_imageOfWords (ws : List InsnWord) : wordsOfImage (imageOfWords ws) = some ws := by
  induction ws with
  | nil => rfl
  | cons w ws ih => rw [imageOfWords_cons, wordsOfImage, ih, wordOfBytes_byteOf]; rfl

/-- Settles O8: `wordsOfImage_imageOfWords`; the first byte is `byteOf w 0`. -/
theorem programImageGivesTheProgramBack : Obligations.ProgramImageGivesTheProgramBack := by
  unfold Obligations.ProgramImageGivesTheProgramBack
  refine ⟨wordsOfImage_imageOfWords, fun w ws => ?_⟩
  rw [imageOfWords_cons, List.head?_cons]; rfl

end Sys2Proof
end

section
/-! PROOFS. The encoding (30_encoding R56-R65, 40_fetch R84): what each word decodes to, and that `encode` is the other
direction. -/

namespace Sys2Proof

/-! ### Decoding an encoded instruction -/

theorem decodeRI_encodeRI (k : Reg → Word → Instr) (o : Opcode) (r : Reg) (imm : Word) :
    decodeRI k (encodeRI o r imm) = .insn (k r imm) := by
  simp [decodeRI, encodeRI]

theorem decodeRR_encodeRR (k : Reg → Reg → Instr) (o : Opcode) (a b : Reg) :
    decodeRR k (encodeRR o a b) = .insn (k a b) := by
  simp [decodeRR, encodeRR]

theorem decodeI_encodeI (k : Word → Instr) (o : Opcode) (imm : Word) :
    decodeI k (encodeI o imm) = .insn (k imm) := by
  simp [decodeI, encodeI]

theorem decodeOperands_encode (i : Instr) : decodeOperands i.opcode (encode i) = .insn i := by
  cases i with
  | load | loadm | store => exact decodeRI_encodeRI ..
  | add | sub | mul | div | cmp => exact decodeRR_encodeRR ..
  | jmp | je | jne => exact decodeI_encodeI ..
  | halt => rfl

theorem unusedFieldsZero_encode (i : Instr) : UnusedFieldsZero i.opcode.format (encode i) := by
  cases i with
  | load | loadm | store => simp [UnusedFieldsZero, Instr.opcode, Opcode.format, encode, encodeRI]
  | add | sub | mul | div | cmp => simp [UnusedFieldsZero, Instr.opcode, Opcode.format, encode, encodeRR]
  | jmp | je | jne => simp [UnusedFieldsZero, Instr.opcode, Opcode.format, encode, encodeI]
  | halt => simp [UnusedFieldsZero, Instr.opcode, Opcode.format, encode]

theorem decode_encode (i : Instr) : decode (encode i) = .insn i := by
  rw [decode_of_unusedFieldsZero (fieldOp_encode i) (unusedFieldsZero_encode i), decodeOperands_encode]

/-- Settles O1: the opcode and the unused fields of an encoded word are right, and its operand fields read back. -/
theorem encodedInstructionDecodesToItself : Obligations.EncodedInstructionDecodesToItself := by
  unfold Obligations.EncodedInstructionDecodesToItself
  exact decode_encode

/-! ### The operands of a word with a legal opcode -/

theorem Opcode.code_inj {o p : Opcode} (h : o.code = p.code) : o = p := by
  simpa using congrArg Opcode.ofCode h

/-- The operands of an opcode are read and written by the two functions of its format. -/
inductive OperandCoding (o : Opcode) : Prop where
  | ri (k : Reg → Word → Instr) (hf : o.format = .ri) (hd : ∀ w, decodeOperands o w = decodeRI k w)
      (he : ∀ r imm, encode (k r imm) = encodeRI o r imm)
  | rr (k : Reg → Reg → Instr) (hf : o.format = .rr) (hd : ∀ w, decodeOperands o w = decodeRR k w)
      (he : ∀ a b, encode (k a b) = encodeRR o a b)
  | i (k : Word → Instr) (hf : o.format = .i) (hd : ∀ w, decodeOperands o w = decodeI k w)
      (he : ∀ imm, encode (k imm) = encodeI o imm)
  | n (k : Instr) (hf : o.format = .n) (hd : ∀ w, decodeOperands o w = .insn k)
      (he : encode k = packWord o.code 0 0 0 0)

theorem Opcode.operandCoding (o : Opcode) : OperandCoding o := by
  cases o with
  | load => exact .ri .load rfl (fun _ => rfl) fun _ _ => rfl
  | loadm => exact .ri .loadm rfl (fun _ => rfl) fun _ _ => rfl
  | store => exact .ri .store rfl (fun _ => rfl) fun _ _ => rfl
  | add => exact .rr .add rfl (fun _ => rfl) fun _ _ => rfl
  | sub => exact .rr .sub rfl (fun _ => rfl) fun _ _ => rfl
  | mul => exact .rr .mul rfl (fun _ => rfl) fun _ _ => rfl
  | div => exact .rr .div rfl (fun _ => rfl) fun _ _ => rfl
  | cmp => exact .rr .cmp rfl (fun _ => rfl) fun _ _ => rfl
  | jmp => exact .i .jmp rfl (fun _ => rfl) fun _ => rfl
  | je => exact .i .je rfl (fun _ => rfl) fun _ => rfl
  | jne => exact .i .jne rfl (fun _ => rfl) fun _ => rfl
  | halt => exact .n .halt rfl (fun _ => rfl) rfl

theorem packWord_eq_iff {op : BitVec 8} {ra rb : BitVec 3} {rsv : BitVec 18} {imm : Word} {w : InsnWord} :
    packWord op ra rb rsv imm = w ↔
      op = fieldOp w ∧ ra = fieldRa w ∧ rb = fieldRb w ∧ rsv = fieldRsv w ∧ imm = fieldImm w := by
  conv_lhs => rw [← packWord_fields w]
  exact packWord_inj

/-- With the opcode and the unused fields right, the register checks alone decide (R84): the operands are those of the
one instruction whose word this is, or a register is unknown. -/
theorem decodeOperands_cases {o : Opcode} {w : InsnWord} (hc : fieldOp w = o.code)
    (hz : UnusedFieldsZero o.format w) :
    (usedRegistersKnown o w = true ∧ ∃ i, encode i = w ∧ decodeOperands o w = .insn i) ∨
    (usedRegistersKnown o w = false ∧ decodeOperands o w = .error .unknownRegister) := by
  cases o.operandCoding with
  | ri k hf hd he =>
    simp only [UnusedFieldsZero, usedRegistersKnown, hf] at hz ⊢
    rcases decodeRI_cases k w with ⟨r, hr, h⟩ | ⟨hr, h⟩
    · refine .inl ⟨by simpa [← hr] using r.number_le, _, ?_, (hd w).trans h⟩
      rw [he, encodeRI, packWord_eq_iff]
      simp [hc, hr, hz]
    · exact .inr ⟨by simpa using hr, (hd w).trans h⟩
  | rr k hf hd he =>
    simp only [UnusedFieldsZero, usedRegistersKnown, hf] at hz ⊢
    rcases decodeRR_cases k w with ⟨r, q, hr, hq, h⟩ | ⟨hrq, h⟩
    · refine .inl ⟨by simp [← hr, ← hq, r.number_le, q.number_le], _, ?_, (hd w).trans h⟩
      rw [he, encodeRR, packWord_eq_iff]
      simp [hc, hr, hq, hz]
    · exact .inr ⟨by simpa [imp_iff_not_or] using hrq, (hd w).trans h⟩
  | i k hf hd he =>
    simp only [UnusedFieldsZero, usedRegistersKnown, hf] at hz ⊢
    refine .inl ⟨trivial, _, ?_, hd w⟩
    rw [he, encodeI, packWord_eq_iff]
    simp [hc, hz]
  | n k hf hd he =>
    simp only [UnusedFieldsZero, usedRegistersKnown, hf] at hz ⊢
    refine .inl ⟨trivial, k, ?_, hd w⟩
    rw [he, packWord_eq_iff]
    simp [hc, hz]

/-! ### Exactly when a word decodes to what -/

/-- The decoder's four answers (R84), each with what it says of the word's fields. -/
inductive DecodesTo (w : InsnWord) : Decoded → Prop where
  | unknownOpcode (hn : Opcode.ofCode (fieldOp w) = none) : DecodesTo w (.error .unknownOpcode)
  | malformedOperands (o : Opcode) (hc : o.code = fieldOp w) (hz : ¬UnusedFieldsZero o.format w) :
      DecodesTo w (.error .malformedOperands)
  | unknownRegister (o : Opcode) (hc : o.code = fieldOp w) (hz : UnusedFieldsZero o.format w)
      (hr : usedRegistersKnown o w = false) : DecodesTo w (.error .unknownRegister)
  | insn (i : Instr) (he : encode i = w) (hr : usedRegistersKnown i.opcode w = true) : DecodesTo w (.insn i)

theorem decodesTo_decode (w : InsnWord) : DecodesTo w (decode w) := by
  rcases decode_cases w with ⟨hn, h⟩ | ⟨o, hc, hz, h⟩ | ⟨o, hc, hz, h⟩
  · exact h ▸ .unknownOpcode hn
  · exact h ▸ .malformedOperands o hc hz
  · rcases decodeOperands_cases hc.symm hz with ⟨hr, i, he, hi⟩ | ⟨hr, hi⟩
    · have ho : i.opcode = o := Opcode.code_inj (by rw [hc, ← he, fieldOp_encode])
      exact h.trans hi ▸ .insn i he (ho ▸ hr)
    · exact h.trans hi ▸ .unknownRegister o hc hz hr

/-- The four conditions exclude each other. -/
theorem decode_eq_iff {w : InsnWord} {d : Decoded} : decode w = d ↔ DecodesTo w d := by
  refine ⟨fun h => h ▸ decodesTo_decode w, fun h => ?_⟩
  cases h with
  | unknownOpcode hn => simp [decode, hn]
  | malformedOperands o hc hz =>
    have hm : ¬w &&& o.format.mask = o.pattern := fun h => hz ((and_mask_eq_pattern o w).mp h).2
    simp [decode, ← hc, hm]
  | unknownRegister o hc hz hr =>
    rw [decode_of_unusedFieldsZero hc.symm hz]
    rcases decodeOperands_cases hc.symm hz with ⟨hk, -⟩ | ⟨-, h⟩
    · simp [hr] at hk
    · exact h
  | insn i he hr => rw [← he, decode_encode]

theorem decode_eq_malformedOperands {w : InsnWord} :
    decode w = .error .malformedOperands ↔ ∃ o : Opcode, o.code = fieldOp w ∧ ¬UnusedFieldsZero o.format w := by
  rw [decode_eq_iff]
  exact ⟨fun | .malformedOperands o hc hz => ⟨o, hc, hz⟩, fun ⟨o, hc, hz⟩ => .malformedOperands o hc hz⟩

theorem decode_eq_unknownRegister {w : InsnWord} :
    decode w = .error .unknownRegister ↔
      ∃ o : Opcode, o.code = fieldOp w ∧ UnusedFieldsZero o.format w ∧ usedRegistersKnown o w = false := by
  rw [decode_eq_iff]
  exact ⟨fun | .unknownRegister o hc hz hr => ⟨o, hc, hz, hr⟩, fun ⟨o, hc, hz, hr⟩ => .unknownRegister o hc hz hr⟩

/-- Settles O2: an instruction is decoded from its own word only. -/
theorem decodedWordIsItsOwnEncoding : Obligations.DecodedWordIsItsOwnEncoding := by
  unfold Obligations.DecodedWordIsItsOwnEncoding
  intro w i h
  cases decode_eq_iff.mp h with
  | insn _ he _ => exact he

/-- Settles O6: both say that the fixed bits are the opcode's and that the used registers are known. -/
theorem wellFormedWordsAreTheInstructions : Obligations.WellFormedWordsAreTheInstructions := by
  unfold Obligations.WellFormedWordsAreTheInstructions
  intro o w
  rw [wordWellFormed, fixedBitsRight, Bool.and_eq_true, beq_iff_eq, and_mask_eq_pattern]
  constructor
  · rintro ⟨⟨hc, hz⟩, hr⟩
    rcases decodeOperands_cases hc hz with ⟨-, i, he, hi⟩ | ⟨hn, -⟩
    · exact ⟨i, he ▸ decode_encode i, Opcode.code_inj (by rw [← hc, ← he, fieldOp_encode])⟩
    · simp [hr] at hn
  · rintro ⟨i, h, rfl⟩
    cases decode_eq_iff.mp h with
    | insn _ he hr => exact ⟨he ▸ ⟨fieldOp_encode i, unusedFieldsZero_encode i⟩, hr⟩

/-! ### The fields of the words that do not decode -/

/-- Each format's opcodes stand together in the opcode map (R60). -/
theorem Opcode.map_format_ofCode (b : BitVec 8) :
    (Opcode.ofCode b).map Opcode.format =
      if b.toNat = 0 then none else if b.toNat ≤ 3 then some .ri else if b.toNat ≤ 8 then some .rr
      else if b.toNat ≤ 11 then some .i else if b.toNat = 12 then some .n else none := by
  revert b; decide

theorem Opcode.exists_of_map_format {b : BitVec 8} {f : Format} {P : Format → Prop} (hp : P f)
    (hf : (Opcode.ofCode b).map Opcode.format = some f) : ∃ o : Opcode, o.code = b ∧ P o.format := by
  obtain ⟨o, ho, rfl⟩ := Option.map_eq_some_iff.mp hf
  exact ⟨o, Opcode.code_of_ofCode ho, hp⟩

theorem Opcode.exists_iff (b : BitVec 8) (P : Format → Prop) :
    (∃ o : Opcode, o.code = b ∧ P o.format) ↔
      (1 ≤ b.toNat ∧ b.toNat ≤ 3 ∧ P .ri) ∨ (4 ≤ b.toNat ∧ b.toNat ≤ 8 ∧ P .rr) ∨
        (9 ≤ b.toNat ∧ b.toNat ≤ 11 ∧ P .i) ∨ (b.toNat = 12 ∧ P .n) := by
  constructor
  · rintro ⟨o, rfl, hp⟩
    cases o with
    | load | loadm | store => exact .inl ⟨by decide, by decide, hp⟩
    | add | sub | mul | div | cmp => exact .inr (.inl ⟨by decide, by decide, hp⟩)
    | jmp | je | jne => exact .inr (.inr (.inl ⟨by decide, by decide, hp⟩))
    | halt => exact .inr (.inr (.inr ⟨by decide, hp⟩))
  · have hmap := Opcode.map_format_ofCode b
    rintro (⟨_, _, hp⟩ | ⟨_, _, hp⟩ | ⟨_, _, hp⟩ | ⟨_, hp⟩) <;>
      exact Opcode.exists_of_map_format hp (by grind)

/-- A register field that the format uses is 4 to 7. -/
def UsedRegisterUnknown (f : Format) (w : InsnWord) : Prop :=
  match f with
  | .ri => 4 ≤ (fieldRa w).toNat
  | .rr => 4 ≤ (fieldRa w).toNat ∨ 4 ≤ (fieldRb w).toNat
  | .i => False
  | .n => False

theorem usedRegistersKnown_eq_false (o : Opcode) (w : InsnWord) :
    usedRegistersKnown o w = false ↔ UsedRegisterUnknown o.format w := by
  unfold usedRegistersKnown UsedRegisterUnknown
  cases o.format with
  | ri => simp [Nat.lt_iff_add_one_le]
  | rr => simp [Nat.lt_iff_add_one_le, imp_iff_not_or]
  | i => simp
  | n => simp

/-- Settles O3: it is the failure of the opcode lookup. -/
theorem unknownOpcodeExactlyOnIllegalOp : Obligations.UnknownOpcodeExactlyOnIllegalOp := by
  unfold Obligations.UnknownOpcodeExactlyOnIllegalOp
  refine ⟨fun w => ?_, by decide⟩
  calc decode w = .error .unknownOpcode
      ↔ Opcode.ofCode (fieldOp w) = none := by
        rw [decode_eq_iff]
        exact ⟨fun | .unknownOpcode hn => hn, .unknownOpcode⟩
    _ ↔ (fieldOp w).toNat = 0 ∨ 0x0D ≤ (fieldOp w).toNat := Opcode.ofCode_eq_none _

/-- Settles O4: `decode_eq_malformedOperands`, read format by format. -/
theorem malformedExactlyOnNonzeroUnusedField : Obligations.MalformedExactlyOnNonzeroUnusedField := by
  unfold Obligations.MalformedExactlyOnNonzeroUnusedField
  intro w
  rw [decode_eq_malformedOperands, Opcode.exists_iff _ fun f => ¬UnusedFieldsZero f w]
  simp only [UnusedFieldsZero]
  tauto

/-- Settles O5: `decode_eq_unknownRegister`, read format by format; the formats I and N use no register. -/
theorem unknownRegisterExactlyOnBadField : Obligations.UnknownRegisterExactlyOnBadField := by
  unfold Obligations.UnknownRegisterExactlyOnBadField
  refine ⟨fun w => ?_, rfl, rfl, rfl, rfl⟩
  simp only [decode_eq_unknownRegister, usedRegistersKnown_eq_false]
  rw [Opcode.exists_iff _ fun f => UnusedFieldsZero f w ∧ UsedRegisterUnknown f w]
  simp only [UnusedFieldsZero, UsedRegisterUnknown]
  tauto

end Sys2Proof
end

section
/-! PROOFS. The text level (30_encoding R66-R76): what a line decodes to, that the assembler's word decodes to the same,
and that a printed instruction reads back. -/

namespace Sys2Proof.Machine

/-! ### The opcode token of a line (R68, R72) -/

theorem mem_allOpcodes (o : Opcode) : o ∈ allOpcodes := by
  cases o <;> decide

@[simp] theorem opcodeOfToken_mnemonic (o : Opcode) : opcodeOfToken (mnemonic o) = some o := by
  cases o <;> decide

theorem opcodeOfToken_eq_none {t : Token} : opcodeOfToken t = none ↔ ∀ o, mnemonic o ≠ t := by
  simp [opcodeOfToken, mem_allOpcodes]

theorem mnemonic_of_opcodeOfToken {t : Token} {o : Opcode} (h : opcodeOfToken t = some o) : mnemonic o = t := by
  simpa using List.find?_some h

@[simp] theorem regOfToken_regToken (r : Reg) : regOfToken (regToken r) = some r := by
  cases r <;> decide

theorem decodeLine_of_mnemonic {line : List Char} {o : Opcode} {ts : List Token} (h : tokens line = mnemonic o :: ts) :
    decodeLine line = decodeTextOperands o ts := by
  simp [decodeLine, h]

/-- The first token of a line is no mnemonic, or it names the opcode by whose operand types the rest is read. -/
theorem decodeLine_cases (line : List Char) :
    ((∀ o, (tokens line).head? ≠ some (mnemonic o)) ∧ decodeLine line = .error .unknownOpcode) ∨
    (∃ o ts, tokens line = mnemonic o :: ts ∧ decodeLine line = decodeTextOperands o ts) := by
  cases ht : tokens line with
  | nil => exact .inl ⟨by simp, by simp [decodeLine, ht]⟩
  | cons t ts =>
    cases ho : opcodeOfToken t with
    | none =>
      have hne := opcodeOfToken_eq_none.mp ho
      exact .inl ⟨fun o h => hne o (by simpa using h.symm), by simp [decodeLine, ht, ho]⟩
    | some o =>
      obtain rfl := mnemonic_of_opcodeOfToken ho
      exact .inr ⟨o, ts, rfl, decodeLine_of_mnemonic ht⟩

/-! ### The errors of a line with an opcode -/

/-- The errors that the operands of an opcode can give (R72): an unknown register needs a format with a register
operand, and a known one before it a format with two. -/
inductive OperandError (o : Opcode) : TextError → Prop where
  | malformed : OperandError o (.malformedOperands o)
  | firstRegister (hf : o.format = .ri ∨ o.format = .rr) : OperandError o (.unknownRegister o none)
  | secondRegister (r : Reg) (hf : o.format = .rr) : OperandError o (.unknownRegister o (some r))

theorem operandError_of_textRI {o : Opcode} {k : Reg → Int → TextInsn} {ts : List Token} {e : TextError}
    (hf : o.format = .ri) (h : textRI o k ts = .error e) : OperandError o e := by
  unfold textRI at h
  split at h
  · split at h
    · cases h; exact .firstRegister (.inl hf)
    · split at h
      · cases h; exact .malformed
      · cases h
  · cases h; exact .malformed

theorem operandError_of_textRR {o : Opcode} {k : Reg → Reg → TextInsn} {ts : List Token} {e : TextError}
    (hf : o.format = .rr) (h : textRR o k ts = .error e) : OperandError o e := by
  unfold textRR at h
  split at h
  · split at h
    · cases h; exact .firstRegister (.inr hf)
    · split at h
      · cases h; exact .secondRegister _ hf
      · cases h
  · cases h; exact .malformed

theorem operandError_of_textI {o : Opcode} {k : Int → TextInsn} {ts : List Token} {e : TextError}
    (h : textI o k ts = .error e) : OperandError o e := by
  unfold textI at h
  split at h
  · split at h
    · cases h; exact .malformed
    · cases h
  · cases h; exact .malformed

theorem operandError_of_textN {o : Opcode} {i : TextInsn} {ts : List Token} {e : TextError}
    (h : textN o i ts = .error e) : OperandError o e := by
  unfold textN at h
  split at h
  · cases h
  · cases h; exact .malformed

theorem operandError_of_decodeTextOperands {o : Opcode} {ts : List Token} {e : TextError}
    (h : decodeTextOperands o ts = .error e) : OperandError o e := by
  cases o with
  | load | loadm | store => exact operandError_of_textRI rfl h
  | add | sub | mul | div | cmp => exact operandError_of_textRR rfl h
  | jmp | je | jne => exact operandError_of_textI h
  | halt => exact operandError_of_textN h

/-- The error word keeps the kind (R74): its opcode is legal, and one field is bad, a reserved one or a register. -/
theorem OperandError.decode_errorWord {o : Opcode} {e : TextError} (h : OperandError o e) :
    decode (errorWord e) = .error e.kind := by
  cases h with
  | malformed => exact decode_eq_malformedOperands.mpr ⟨o, by simp [errorWord], by simp [errorWord, UnusedFieldsZero]⟩
  | firstRegister hf =>
    refine decode_eq_unknownRegister.mpr ⟨o, by simp [errorWord], ?_⟩
    rcases hf with hf | hf <;> simp [errorWord, UnusedFieldsZero, usedRegistersKnown, hf]
  | secondRegister r hf =>
    exact decode_eq_unknownRegister.mpr ⟨o, by simp [errorWord],
      by simp [errorWord, UnusedFieldsZero, usedRegistersKnown, hf]⟩

/-- Settles O9: an instruction's word decodes to it, and an error word to its kind. -/
theorem assembledLineDecodesAsTheLine : Obligations.AssembledLineDecodesAsTheLine := by
  unfold Obligations.AssembledLineDecodesAsTheLine
  intro line
  unfold assembleLine
  cases h : decodeLine line with
  | insn i => exact decode_encode i.toInstr
  | error e =>
    rcases decodeLine_cases line with ⟨-, hd⟩ | ⟨o, ts, -, hd⟩
    · cases h.symm.trans hd; decide
    · exact (operandError_of_decodeTextOperands (hd.symm.trans h)).decode_errorWord

/-- Settles O12: once the first token names an opcode, no error of the operands is UnknownOpcode. -/
theorem textOpcodeTokenIsExact : Obligations.TextOpcodeTokenIsExact := by
  unfold Obligations.TextOpcodeTokenIsExact
  intro line
  rcases decodeLine_cases line with ⟨hne, hd⟩ | ⟨o, ts, ht, hd⟩
  · exact iff_of_true hd hne
  · refine iff_of_false (fun h => ?_) fun h => h o (by rw [ht, List.head?_cons])
    cases operandError_of_decodeTextOperands (hd.symm.trans h)

/-! ### Integer tokens (R71) -/

/-- The characters are decimal digits. -/
def AllDigits (t : List Char) : Prop := ∀ c ∈ t, 48 ≤ c.toNat ∧ c.toNat ≤ 57

/-- The number that decimal digits denote, read after the value `acc`. -/
def decimalValue (acc : Nat) (t : List Char) : Nat := t.foldl (fun n c => 10 * n + (c.toNat - 48)) acc

theorem allDigits_cons {c : Char} {t : List Char} :
    AllDigits (c :: t) ↔ (48 ≤ c.toNat ∧ c.toNat ≤ 57) ∧ AllDigits t := List.forall_mem_cons

theorem AllDigits.append {t u : List Char} (ht : AllDigits t) (hu : AllDigits u) : AllDigits (t ++ u) :=
  List.forall_mem_append.mpr ⟨ht, hu⟩

theorem natOfDigits_eq_some {acc n : Nat} {t : List Char} :
    natOfDigits acc t = some n ↔ AllDigits t ∧ decimalValue acc t = n := by
  induction t generalizing acc with
  | nil => simp [natOfDigits, AllDigits, decimalValue]
  | cons c t ih =>
    by_cases hc : 48 ≤ c.toNat ∧ c.toNat ≤ 57
    · simp [natOfDigits, digitValue, allDigits_cons, hc, ih, decimalValue]
    · simp [natOfDigits, digitValue, allDigits_cons, hc]

theorem natOfToken_eq_some {t : Token} {n : Nat} :
    natOfToken t = some n ↔ t ≠ [] ∧ AllDigits t ∧ decimalValue 0 t = n := by
  unfold natOfToken
  split
  · simp [*]
  · simp [*, natOfDigits_eq_some]

theorem intOfDigits_eq_some {t : Token} {v : Int} :
    intOfDigits t = some v ↔ t ≠ [] ∧ AllDigits t ∧ v = decimalValue 0 t := by
  rw [intOfDigits, Option.map_eq_some_iff]
  constructor
  · rintro ⟨n, hn, rfl⟩
    obtain ⟨hne, hd, rfl⟩ := natOfToken_eq_some.mp hn
    exact ⟨hne, hd, rfl⟩
  · rintro ⟨hne, hd, rfl⟩
    exact ⟨_, natOfToken_eq_some.mpr ⟨hne, hd, rfl⟩, rfl⟩

theorem intOfToken_plus (t : Token) : intOfToken ('+' :: t) = intOfDigits t := by simp [intOfToken]

theorem intOfToken_minus (t : Token) : intOfToken ('-' :: t) = (intOfDigits t).map fun v => -v := by simp [intOfToken]

/-- Without a sign before it, a token is read as its digits. -/
theorem intOfToken_unsigned {t : Token} (hplus : t.head? ≠ some '+') (hminus : t.head? ≠ some '-') :
    intOfToken t = intOfDigits t := by
  cases t with
  | nil => rfl
  | cons c t =>
    simp only [List.head?_cons, ne_eq, Option.some.injEq] at hplus hminus
    simp only [intOfToken, if_neg hplus, if_neg hminus]

theorem AllDigits.head?_ne {t : List Char} {c : Char} (ht : AllDigits t) (hc : c.toNat < 48) : t.head? ≠ some c := by
  intro h
  have := ht c (List.mem_of_head? h)
  omega

theorem intOfToken_of_allDigits {t : Token} (ht : AllDigits t) : intOfToken t = intOfDigits t :=
  intOfToken_unsigned (ht.head?_ne (by decide)) (ht.head?_ne (by decide))

/-- Settles O13: the first character is `+`, `-` or neither, and the rest is read by `intOfDigits`. -/
theorem integerTokenDenotesItsInteger : Obligations.IntegerTokenDenotesItsInteger := by
  unfold Obligations.IntegerTokenDenotesItsInteger
  intro t v
  constructor
  · intro h
    by_cases hplus : t.head? = some '+'
    · obtain ⟨t, rfl⟩ := List.head?_eq_some_iff.mp hplus
      rw [intOfToken_plus, intOfDigits_eq_some] at h
      obtain ⟨hne, hd, hv⟩ := h
      exact ⟨['+'], t, rfl, hne, hd, .inl ⟨.inr rfl, hv⟩⟩
    by_cases hminus : t.head? = some '-'
    · obtain ⟨t, rfl⟩ := List.head?_eq_some_iff.mp hminus
      rw [intOfToken_minus, Option.map_eq_some_iff] at h
      obtain ⟨n, hn, rfl⟩ := h
      obtain ⟨hne, hd, rfl⟩ := intOfDigits_eq_some.mp hn
      exact ⟨['-'], t, rfl, hne, hd, .inr ⟨rfl, rfl⟩⟩
    · rw [intOfToken_unsigned hplus hminus, intOfDigits_eq_some] at h
      obtain ⟨hne, hd, hv⟩ := h
      exact ⟨[], t, rfl, hne, hd, .inl ⟨.inl rfl, hv⟩⟩
  · rintro ⟨sign, digits, rfl, hne, hd, ⟨rfl | rfl, hv⟩ | ⟨rfl, rfl⟩⟩
    · exact (intOfToken_of_allDigits hd).trans (intOfDigits_eq_some.mpr ⟨hne, hd, hv⟩)
    · exact (intOfToken_plus digits).trans (intOfDigits_eq_some.mpr ⟨hne, hd, hv⟩)
    · rw [List.singleton_append, intOfToken_minus, intOfDigits_eq_some.mpr ⟨hne, hd, rfl⟩]
      rfl

/-! ### Literals in 32 bits (R75) -/

theorem wrap32_sint (v : Word) : wrap32 (sint v) = v := BitVec.ofInt_toInt

theorem sint_saturate32 (v : Int) : sint (saturate32 v) = max (-(2 ^ 31)) (min (2 ^ 31 - 1) v) := by
  rw [saturate32, sint_wrap32]
  exact Int.bmod_eq_of_le (by omega) (by omega)

theorem saturate32_sint (v : Word) : saturate32 (sint v) = v := by
  obtain ⟨hlo, hhi⟩ := sint_range v
  rw [saturate32, min_eq_right hhi, max_eq_right hlo, wrap32_sint]

theorem jumpTarget?_eq_none {imm : Word} : jumpTarget? imm = none ↔ sint imm < 0 := by
  simp [jumpTarget?]

/-- Settles O11: `sint_saturate32` bounds the literal by the ends of the 32-bit range, and 0 to 255 and 0 lie between. -/
theorem saturationKeepsTheOutcome : Obligations.SaturationKeepsTheOutcome := by
  unfold Obligations.SaturationKeepsTheOutcome
  intro v
  have hsat := sint_saturate32 v
  refine ⟨fun a => ?_, ?_, fun hlo hhi => ?_, fun hv => ?_⟩
  · have ha : a.val < 256 := a.isLt
    rw [dmemAddr?_eq_some]
    omega
  · rw [jumpTarget?_eq_none]
    omega
  · omega
  · have hu := uint_of_sint_nonneg (v := saturate32 v) (by omega)
    omega

/-! ### Printing an integer and reading it (R76) -/

theorem toNat_digit {d : Nat} (hd : d < 10) : (Char.ofNat (48 + d)).toNat = 48 + d := by
  revert d; decide

theorem allDigits_digit {d : Nat} (hd : d < 10) : AllDigits [Char.ofNat (48 + d)] := by
  simp only [AllDigits, List.mem_singleton, forall_eq, toNat_digit hd]
  omega

theorem allDigits_decimalDigits (fuel n : Nat) : AllDigits (decimalDigits fuel n) := by
  induction fuel generalizing n with
  | zero => exact fun _ h => absurd h List.not_mem_nil
  | succ fuel ih =>
    unfold decimalDigits
    split
    · exact allDigits_digit ‹_›
    · exact (ih _).append (allDigits_digit (Nat.mod_lt _ (by decide)))

/-- The fuel suffices for the numbers with that many digits. -/
theorem decimalValue_decimalDigits {fuel n : Nat} (hn : n < 10 ^ fuel) : decimalValue 0 (decimalDigits fuel n) = n := by
  induction fuel generalizing n with
  | zero => simp at hn; simp [decimalDigits, decimalValue, hn]
  | succ fuel ih =>
    unfold decimalDigits
    split
    · simp [decimalValue, toNat_digit ‹_›]
    · have hq := ih (n := n / 10) (by omega)
      have hr := toNat_digit (Nat.mod_lt n (y := 10) (by decide))
      simp only [decimalValue, List.foldl_append, List.foldl_cons, List.foldl_nil, hr] at hq ⊢
      omega

theorem decimalDigits_succ_ne_nil (fuel n : Nat) : decimalDigits (fuel + 1) n ≠ [] := by
  unfold decimalDigits
  split <;> simp

theorem intOfDigits_decimalDigits {fuel n : Nat} (hn : n < 10 ^ (fuel + 1)) :
    intOfDigits (decimalDigits (fuel + 1) n) = some (n : Int) :=
  intOfDigits_eq_some.mpr
    ⟨decimalDigits_succ_ne_nil fuel n, allDigits_decimalDigits _ n, by rw [decimalValue_decimalDigits hn]⟩

theorem intOfToken_printInt (imm : Word) : intOfToken (printInt imm) = some (sint imm) := by
  obtain ⟨hlo, hhi⟩ := sint_range imm
  have hread := intOfDigits_decimalDigits (fuel := 9) (n := (sint imm).natAbs) (by omega)
  unfold printInt
  split
  · rw [intOfToken_minus, hread, Option.map_some, Option.some.injEq]
    omega
  · rw [intOfToken_of_allDigits (allDigits_decimalDigits _ _), hread, Option.some.injEq]
    omega

/-! ### The tokens of a printed line (R67, R76) -/

/-- A text that splits off whole: it has a character, and none of its characters is a separator. -/
def IsToken (t : Token) : Prop := t ≠ [] ∧ ∀ c ∈ t, isSeparator c = false

theorem tokensFrom_append {t : List Char} (ht : ∀ c ∈ t, isSeparator c = false) (cur : Token) (rest : List Char) :
    tokensFrom cur (t ++ rest) = tokensFrom (cur ++ t) rest := by
  induction t generalizing cur with
  | nil => simp
  | cons c t ih =>
    obtain ⟨hc, ht⟩ := List.forall_mem_cons.mp ht
    simp [tokensFrom, hc, ih ht]

theorem tokensFrom_space (cur : Token) (rest : List Char) :
    tokensFrom cur (' ' :: rest) = flushToken cur ++ tokens rest := by
  simp [tokensFrom, isSeparator, tokens]

theorem IsToken.tokens_append {t : Token} (ht : IsToken t) (rest : List Char) :
    tokens (t ++ rest) = tokensFrom t rest := tokensFrom_append ht.2 [] rest

theorem IsToken.flushToken_eq {t : Token} (ht : IsToken t) : flushToken t = [t] := if_neg ht.1

theorem tokens_joinTokens {ts : List Token} (h : ∀ t ∈ ts, IsToken t) : tokens (joinTokens ts) = ts := by
  induction ts with
  | nil => rfl
  | cons t ts ih =>
    obtain ⟨ht, hts⟩ := List.forall_mem_cons.mp h
    cases ts with
    | nil =>
      calc tokens t = tokens (t ++ []) := by rw [List.append_nil]
        _ = flushToken t := ht.tokens_append []
        _ = [t] := ht.flushToken_eq
    | cons u us =>
      calc tokens (t ++ ' ' :: joinTokens (u :: us))
          = flushToken t ++ tokens (joinTokens (u :: us)) := by rw [ht.tokens_append, tokensFrom_space]
        _ = t :: u :: us := by rw [ht.flushToken_eq, ih hts, List.singleton_append]

theorem isToken_mnemonic (o : Opcode) : IsToken (mnemonic o) := by
  cases o <;> simp [IsToken, mnemonic, isSeparator]

theorem isToken_regToken (r : Reg) : IsToken (regToken r) := by
  cases r <;> simp [IsToken, regToken, isSeparator]

theorem AllDigits.no_separator {t : List Char} (ht : AllDigits t) : ∀ c ∈ t, isSeparator c = false := by
  intro c hc
  have hlo := (ht c hc).1
  have hspace : c ≠ ' ' := by rintro rfl; exact absurd hlo (by decide)
  have htab : c ≠ '\t' := by rintro rfl; exact absurd hlo (by decide)
  simp [isSeparator, hspace, htab]

theorem isToken_printInt (imm : Word) : IsToken (printInt imm) := by
  have hsep := (allDigits_decimalDigits 10 (sint imm).natAbs).no_separator
  unfold printInt
  split
  · exact ⟨List.cons_ne_nil _ _, List.forall_mem_cons.mpr ⟨rfl, hsep⟩⟩
  · exact ⟨decimalDigits_succ_ne_nil _ _, hsep⟩

theorem isToken_of_mem_operandTokens {i : Instr} {t : Token} (h : t ∈ operandTokens i) : IsToken t := by
  cases i with
  | load r imm | loadm r imm | store r imm =>
    rcases List.mem_pair.mp h with rfl | rfl
    · exact isToken_regToken r
    · exact isToken_printInt imm
  | add x y | sub x y | mul x y | div x y | cmp x y =>
    rcases List.mem_pair.mp h with rfl | rfl
    · exact isToken_regToken x
    · exact isToken_regToken y
  | jmp imm | je imm | jne imm =>
    obtain rfl := List.mem_singleton.mp h
    exact isToken_printInt imm
  | halt => exact absurd h List.not_mem_nil

theorem tokens_printInstr (i : Instr) : tokens (printInstr i) = mnemonic i.opcode :: operandTokens i :=
  tokens_joinTokens
    (List.forall_mem_cons.mpr ⟨isToken_mnemonic i.opcode, fun _ => isToken_of_mem_operandTokens⟩)

/-! ### Reading a printed instruction (R76) -/

/-- The decoded line of an instruction's printed form: its integers are the signed readings. -/
def textOfInstr : Instr → TextInsn
  | .load r imm => .load r (sint imm)
  | .loadm r imm => .loadm r (sint imm)
  | .store r imm => .store r (sint imm)
  | .add x y => .add x y
  | .sub x y => .sub x y
  | .mul x y => .mul x y
  | .div x y => .div x y
  | .cmp x y => .cmp x y
  | .jmp imm => .jmp (sint imm)
  | .je imm => .je (sint imm)
  | .jne imm => .jne (sint imm)
  | .halt => .halt

/-- Neither reduction of a literal changes an integer that a word stands for. -/
theorem toInstr_textOfInstr (i : Instr) : (textOfInstr i).toInstr = i := by
  cases i with
  | load r imm => exact congrArg (Instr.load r) (wrap32_sint imm)
  | loadm r imm => exact congrArg (Instr.loadm r) (saturate32_sint imm)
  | store r imm => exact congrArg (Instr.store r) (saturate32_sint imm)
  | add | sub | mul | div | cmp => rfl
  | jmp imm => exact congrArg Instr.jmp (saturate32_sint imm)
  | je imm => exact congrArg Instr.je (saturate32_sint imm)
  | jne imm => exact congrArg Instr.jne (saturate32_sint imm)
  | halt => rfl

theorem textRI_printed (o : Opcode) (k : Reg → Int → TextInsn) (r : Reg) (imm : Word) :
    textRI o k [regToken r, printInt imm] = .insn (k r (sint imm)) := by
  simp [textRI, intOfToken_printInt]

theorem textRR_printed (o : Opcode) (k : Reg → Reg → TextInsn) (x y : Reg) :
    textRR o k [regToken x, regToken y] = .insn (k x y) := by
  simp [textRR]

theorem textI_printed (o : Opcode) (k : Int → TextInsn) (imm : Word) :
    textI o k [printInt imm] = .insn (k (sint imm)) := by
  simp [textI, intOfToken_printInt]

theorem decodeLine_printInstr (i : Instr) : decodeLine (printInstr i) = .insn (textOfInstr i) := by
  rw [decodeLine_of_mnemonic (tokens_printInstr i)]
  cases i with
  | load | loadm | store => exact textRI_printed ..
  | add | sub | mul | div | cmp => exact textRR_printed ..
  | jmp | je | jne => exact textI_printed ..
  | halt => rfl

theorem assembleLine_printInstr (i : Instr) : assembleLine (printInstr i) = encode i := by
  simp only [assembleLine, decodeLine_printInstr, toInstr_textOfInstr]

/-- Settles O10: the word prints as its instruction, which reads back as itself, and the word is its encoding. -/
theorem disassembledInstructionReassembles : Obligations.DisassembledInstructionReassembles := by
  unfold Obligations.DisassembledInstructionReassembles
  intro w i h
  calc assembleLine (disassemble w)
      = assembleLine (printInstr i) := by simp only [disassemble, h]
    _ = encode i := assembleLine_printInstr i
    _ = w := decodedWordIsItsOwnEncoding w i h

end Sys2Proof.Machine
end

section
/-! PROOFS. Fetch, decode and dispatch (40_fetch): which of its ways a step takes, the Halted state, and an instruction
that names one register twice. -/

namespace Sys2Proof.Machine

/-! ### The step -/

/-- Settles O39: the fetch answers the word and its decoding an instruction, so `step_of_fetch` is that arm. -/
theorem stepRunsTheDecodedInstruction : Obligations.StepRunsTheDecodedInstruction := by
  unfold Obligations.StepRunsTheDecodedInstruction
  intro s w i hs hp hw hd
  simp only [step_of_fetch hs, fetch_eq_word.mpr ⟨hp, hw⟩, hd]

/-- Settles O40: the fetch answers the word and its decoding an error, which is raised, and that is a halt entry. -/
theorem decodeErrorHaltsTheStep : Obligations.DecodeErrorHaltsTheStep := by
  unfold Obligations.DecodeErrorHaltsTheStep
  intro s w e hs hp hw hd
  have hstep : step s = .next (s.raise (decodeErrorKind e) w) := by
    simp only [step_of_fetch hs, fetch_eq_word.mpr ⟨hp, hw⟩, hd, raiseDecodeError]
  exact ⟨_, hstep, s.raise_haltedFrom _ w⟩

/-- Settles O41: the fetch answers the end of the program, which is a halt entry that keeps ERR_INSN. -/
theorem fetchPastTheEndEndsTheProgram : Obligations.FetchPastTheEndEndsTheProgram := by
  unfold Obligations.FetchPastTheEndEndsTheProgram
  intro s hs hp
  have hstep : step s = .next s.stopEndOfProgram := by
    simp only [step_of_fetch hs, fetch_eq_endOfProgram.mpr hp, finishProgram]
  exact ⟨_, hstep, s.stopEndOfProgram_haltedFrom⟩

/-- A transition leads out of Halted only as a reset edge: with `rst` low a halted machine answers itself (R92). -/
theorem rst_of_step_leaves_halted {s t : State} (hh : s.halted = true) (h : step s = .next t)
    (ht : t.halted = false) : s.rst = true := by
  cases step_cases h with
  | resetEdge hr => exact hr
  | halted => exact absurd (hh.symm.trans ht) (by decide)
  | endOfProgram hs | decodeError hs | executed hs => exact absurd (hh.symm.trans hs.running) (by decide)

/-- Settles O44: `run_of_halted` and `rst_of_step_leaves_halted`. -/
theorem haltedIsTerminal : Obligations.HaltedIsTerminal := by
  unfold Obligations.HaltedIsTerminal
  exact ⟨fun s n hr hh => run_of_halted hr hh n, fun s t => rst_of_step_leaves_halted⟩

/-! ### One register named twice -/

/-- The ALU reads both operands before it writes, so a register named twice gives its old value twice (R87). -/
theorem State.aluWrite_reg_self (s : State) (op : Int → Int → Int) (r : Reg) :
    (s.aluWrite op r r).reg r = wrap32 (op (sint (s.reg r)) (sint (s.reg r))) := by
  rw [State.aluWrite_reg, if_pos rfl]

/-- Only the word 0 stands for the integer 0. -/
theorem sint_ne_zero {v : Word} (h : v ≠ 0) : sint v ≠ 0 := fun hz => h (BitVec.toInt_inj.mp hz)

/-- DIV writes the floor quotient where the divisor is not 0 (R105). -/
theorem exec_div_of_ne_zero {rs : Reg} {s : State} (h : s.reg rs ≠ 0) (rd : Reg) :
    exec (.div rd rs) s = .next (s.aluWrite floorDiv rd rs) :=
  if_neg (sint_ne_zero h)

theorem wrap32_floorDiv_self {v : Word} (h : v ≠ 0) : wrap32 (floorDiv (sint v) (sint v)) = 1 := by
  rw [floorDiv, Int.fdiv_self (sint_ne_zero h)]; rfl

/-- Settles O19: the ALU's clauses by `State.aluWrite_reg_self` and the integer identity of each operation. -/
theorem sameRegisterTwiceReadsTheOldValue : Obligations.SameRegisterTwiceReadsTheOldValue := by
  unfold Obligations.SameRegisterTwiceReadsTheOldValue
  refine fun r s => ⟨⟨_, rfl, ?add⟩, ⟨_, rfl, ?sub⟩, ⟨_, rfl, ?mul⟩, fun h => ⟨_, exec_div_of_ne_zero h r, ?div⟩,
    ⟨_, rfl, ?cmp⟩⟩
  case add => rw [State.aluWrite_reg_self, two_mul]
  case sub => rw [State.aluWrite_reg_self, Int.sub_self]; rfl
  case mul => rw [State.aluWrite_reg_self, sq]
  case div => rw [State.aluWrite_reg_self, wrap32_floorDiv_self h]
  case cmp => exact beq_self_eq_true (s.reg r)

end Sys2Proof.Machine
end

section
/-! PROOFS. LOAD, LOADM and STORE (41_data_transfer R98-R100): what each leaves, its frame and its error, and the
example words of the instruction pages. -/

namespace Sys2Proof.Machine

/-! ### What an instruction that writes one register leaves -/

/-- An instruction that ends in a register write and the commit changes that register and the PC, and nothing else:
the write-back of LOAD and LOADM. -/
theorem leaves_of_exec_setReg {i : Instr} {s : State} {rd : Reg} {v : Word}
    (h : exec i s = .next ((s.setReg rd v).continueAt s.pcNext)) :
    ∃ t, exec i s = .next t ∧ t.reg rd = v ∧ t.pc = s.pc + 1 ∧
      SameRegsBut rd s t ∧ t.eq = s.eq ∧ SameDmem s t ∧ Continued s t := by
  refine ⟨_, h, ?value, rfl, fun r hr => ?regs, ?eq, fun a => ?dmem,
    State.continueAt_continued (s.setReg_sameControl rd v) _⟩
  case value => rw [State.continueAt_reg, State.reg_setReg_same]
  case regs => rw [State.continueAt_reg, State.reg_setReg_of_ne s rd r v hr]
  case eq => rw [State.continueAt_eq, State.setReg_eq]
  case dmem => rw [State.continueAt_memRead, State.setReg_memRead]

/-! ### The three instructions -/

/-- Settles O20: LOAD is a register write in every state. -/
theorem loadWritesTheImmediate : Obligations.LoadWritesTheImmediate := by
  unfold Obligations.LoadWritesTheImmediate
  exact fun rd imm s => leaves_of_exec_setReg rfl

/-- Settles O21: on a valid address LOADM is a register write, on any other it is a halt entry. -/
theorem loadmReadsTheWord : Obligations.LoadmReadsTheWord := by
  unfold Obligations.LoadmReadsTheWord
  refine fun rd addr s => ⟨fun a ha => ?_, fun hout => ?_⟩
  · exact leaves_of_exec_setReg (exec_loadm_of_valid ha rd s)
  · exact ⟨_, exec_loadm_of_outside hout rd s, s.raise_haltedFrom _ _⟩

/-- Settles O22: on a valid address STORE is a memory write, which the other addresses do not see
(`Memory.read_write_of_ne`); on any other address it is a halt entry. -/
theorem storeWritesTheWord : Obligations.StoreWritesTheWord := by
  unfold Obligations.StoreWritesTheWord
  refine fun rs addr s => ⟨fun a ha => ?_, fun hout => ?_⟩
  · refine ⟨_, exec_store_of_valid ha rs s, Memory.read_write_same s.dmem a _,
      fun x hx => Memory.read_write_of_ne s.dmem a x _ hx, rfl, fun r => ?regs, rfl,
      State.continueAt_continued (s.memWrite_sameControl a _) _⟩
    case regs => rw [State.continueAt_reg, State.memWrite_reg]
  · exact ⟨_, exec_store_of_outside hout rs s, s.raise_haltedFrom _ _⟩

/-! ### The example words -/

/-- A word is decoded by exhibiting the instruction it encodes. -/
theorem decode_of_encode_eq {i : Instr} {w : InsnWord} (h : encode i = w) : decode w = .insn i :=
  h ▸ decode_encode i

/-- Settles O7: each word is the encoding of its instruction, so the round trip decodes it. -/
theorem exampleWordsDecode : Obligations.ExampleWordsDecode := by
  unfold Obligations.ExampleWordsDecode
  refine ⟨?_, ?_, ?_, ?_, ?_, ?_, ?_, ?_, ?_, ?_, ?_, ?_⟩ <;> exact decode_of_encode_eq rfl

end Sys2Proof.Machine
end

section
/-! PROOFS. ADD, SUB, MUL and DIV (42_arithmetic R101-R108): the word each writes, when that word is the exact result,
and the division error. -/

namespace Sys2Proof.Machine

/-! ### Exact results -/

/-- Wrapping changes no integer of the signed 32-bit range (R101). -/
theorem sint_wrap32_of_range {n : Int} (hlo : -(2 ^ 31) ≤ n) (hhi : n ≤ 2 ^ 31 - 1) : sint (wrap32 n) = n := by
  rw [sint_wrap32]
  exact Int.bmod_eq_of_le (by omega) (by omega)

/-- No quotient of two words lies below the signed range. -/
theorem neg_two_pow_le_floorDiv {y : Word} (hy : sint y ≠ 0) (x : Word) :
    -(2 ^ 31) ≤ floorDiv (sint x) (sint y) := by
  obtain ⟨hlo, hhi⟩ := sint_range x
  rcases lt_or_gt_of_ne hy with hneg | hpos
  · rw [le_floorDiv_iff_of_neg hneg]; omega
  · rw [le_floorDiv_iff_of_pos hpos]; omega

/-- A quotient of two words lies above the signed range for one pair only (R107). By the adjunction a quotient of at
least 2^31 compares the dividend with 2^31 times the divisor: beyond reach for a positive divisor, reached by the minimum
alone for -1. -/
theorem two_pow_le_floorDiv_iff {y : Word} (hy : sint y ≠ 0) (x : Word) :
    2 ^ 31 ≤ floorDiv (sint x) (sint y) ↔ sint x = -(2 ^ 31) ∧ sint y = -1 := by
  obtain ⟨hlo, hhi⟩ := sint_range x
  rcases lt_or_gt_of_ne hy with hneg | hpos
  · rw [le_floorDiv_iff_of_neg hneg]; omega
  · rw [le_floorDiv_iff_of_pos hpos]; omega

/-! ### What the ALU writes -/

@[simp] theorem State.aluWrite_reg_dest (s : State) (op : Int → Int → Int) (rd rs : Reg) :
    (s.aluWrite op rd rs).reg rd = wrap32 (op (sint (s.reg rd)) (sint (s.reg rs))) := by
  rw [State.aluWrite_reg, if_pos rfl]

/-- The destination's signed reading is the exact result where that fits in 32 bits (R101). -/
theorem State.sint_aluWrite_of_range {s : State} {op : Int → Int → Int} {rd rs : Reg}
    (hlo : -(2 ^ 31) ≤ op (sint (s.reg rd)) (sint (s.reg rs)))
    (hhi : op (sint (s.reg rd)) (sint (s.reg rs)) ≤ 2 ^ 31 - 1) :
    sint ((s.aluWrite op rd rs).reg rd) = op (sint (s.reg rd)) (sint (s.reg rs)) := by
  rw [State.aluWrite_reg_dest, sint_wrap32_of_range hlo hhi]

/-- `exec_div_of_ne_zero` for the signed reading, which the rules speak of. -/
theorem exec_div_of_sint_ne_zero {rs : Reg} {s : State} (h : sint (s.reg rs) ≠ 0) (rd : Reg) :
    exec (.div rd rs) s = .next (s.aluWrite floorDiv rd rs) :=
  exec_div_of_ne_zero (BitVec.toInt_ne.mp h) rd

/-- DIV raises DivisionByZero where the divisor is 0 (R105). -/
theorem exec_div_of_sint_eq_zero {rs : Reg} {s : State} (h : sint (s.reg rs) = 0) (rd : Reg) :
    exec (.div rd rs) s = .next (s.raise .divisionByZero (encode (.div rd rs))) :=
  if_pos h

/-- Settles O17: the quotient of the minimum by -1 wraps to the minimum, and `two_pow_le_floorDiv_iff` keeps every other
quotient in the range where wrapping changes nothing. -/
theorem divOverflowsOnlyAtTheMinimum : Obligations.DivOverflowsOnlyAtTheMinimum := by
  unfold Obligations.DivOverflowsOnlyAtTheMinimum
  refine ⟨fun rd rs s hx hy => ?_, fun x y hy hne => ?_⟩
  · have hdiv : sint (s.reg rs) ≠ 0 := by omega
    refine ⟨_, exec_div_of_sint_ne_zero hdiv rd, ?value, s.aluWrite_status .., s.aluWrite_eq ..⟩
    case value => rw [State.aluWrite_reg_dest, hx, hy]; decide
  · have hhi : ¬ 2 ^ 31 ≤ floorDiv (sint x) (sint y) := (two_pow_le_floorDiv_iff hy x).not.mpr hne
    exact sint_wrap32_of_range (neg_two_pow_le_floorDiv hy x) (by omega)

/-- Settles O18: each operation is an ALU write, exact by `State.sint_aluWrite_of_range`; for DIV the lower bound is
`neg_two_pow_le_floorDiv`. -/
theorem arithmeticIsExactInRange : Obligations.ArithmeticIsExactInRange := by
  unfold Obligations.ArithmeticIsExactInRange
  refine fun rd rs s => ⟨fun hlo hhi => ⟨_, rfl, ?add⟩, fun hlo hhi => ⟨_, rfl, ?sub⟩, fun hlo hhi => ⟨_, rfl, ?mul⟩,
    fun hne hhi => ⟨_, exec_div_of_sint_ne_zero hne rd, ?div⟩⟩
  case add | sub | mul => exact State.sint_aluWrite_of_range hlo hhi
  case div => exact State.sint_aluWrite_of_range (neg_two_pow_le_floorDiv hne _) hhi

/-! ### The table of R106 -/

theorem floorDivTable_row : ∀ row ∈ floorDivTable,
    row.2.1 ≠ 0 ∧ sint (wrap32 (floorDiv row.1 row.2.1)) = row.2.2 := by decide

/-- Settles O16: `floorDivTable_row` computes the rows with a nonzero divisor; the two others are a halt entry. -/
theorem divFollowsTheSignTable : Obligations.DivFollowsTheSignTable := by
  unfold Obligations.DivFollowsTheSignTable
  refine ⟨fun row hrow rd rs s hx hy => ?_, fun rd rs s _ hy => ?_⟩
  · obtain ⟨hne, hvalue⟩ := floorDivTable_row row hrow
    refine ⟨_, exec_div_of_sint_ne_zero (hy ▸ hne) rd, ?value, s.aluWrite_status ..⟩
    case value => rw [State.aluWrite_reg_dest, hx, hy, hvalue]
  · exact ⟨_, exec_div_of_sint_eq_zero hy rd, s.raise_reg .., s.haltEntry_cause ..⟩

/-! ### The four instructions: each is a register write (`leaves_of_exec_setReg`), DIV where its divisor is not 0 -/

/-- Settles O23: ADD is a register write in every state. -/
theorem addWritesTheWrappedSum : Obligations.AddWritesTheWrappedSum := by
  unfold Obligations.AddWritesTheWrappedSum
  exact fun rd rs s => leaves_of_exec_setReg rfl

/-- Settles O24: SUB is a register write in every state. -/
theorem subWritesTheWrappedDifference : Obligations.SubWritesTheWrappedDifference := by
  unfold Obligations.SubWritesTheWrappedDifference
  exact fun rd rs s => leaves_of_exec_setReg rfl

/-- Settles O25: MUL is a register write in every state. -/
theorem mulWritesTheWrappedProduct : Obligations.MulWritesTheWrappedProduct := by
  unfold Obligations.MulWritesTheWrappedProduct
  exact fun rd rs s => leaves_of_exec_setReg rfl

/-- Settles O26: by a nonzero divisor DIV is a register write, by zero it is a halt entry. -/
theorem divWritesTheWrappedFloorQuotient : Obligations.DivWritesTheWrappedFloorQuotient := by
  unfold Obligations.DivWritesTheWrappedFloorQuotient
  refine fun rd rs s => ⟨fun hne => ?_, fun hz => ?_⟩
  · exact leaves_of_exec_setReg (exec_div_of_sint_ne_zero hne rd)
  · exact ⟨_, exec_div_of_sint_eq_zero hz rd, s.raise_haltedFrom _ _⟩

end Sys2Proof.Machine
end

section
/-! PROOFS. CMP (43_compare R109): when it sets EQ, what FLAGS then reads (R20), and its frame. -/

namespace Sys2Proof.Machine

theorem eqResult_eq_true_iff {x y : Word} : eqResult x y = true ↔ x = y := beq_iff_eq

/-- FLAGS reads 1 exactly on the condition that EQ records. -/
theorem State.flags_of_eq_iff {s : State} {p : Prop} [Decidable p] (h : s.eq = true ↔ p) :
    s.flags = if p then 1 else 0 :=
  if_congr h rfl rfl

/-- Settles O27: CMP writes EQ and commits in every state; `eqResult_eq_true_iff` says what EQ records, and FLAGS
follows it by `State.flags_of_eq_iff`. -/
theorem cmpSetsEqExactlyOnEquality : Obligations.CmpSetsEqExactlyOnEquality := by
  unfold Obligations.CmpSetsEqExactlyOnEquality
  refine fun ra rb s => ⟨_, rfl, eqResult_eq_true_iff, State.flags_of_eq_iff eqResult_eq_true_iff, rfl,
    fun r => ?regs, fun a => ?dmem, State.continueAt_continued (s.setEq_sameControl _) _⟩
  case regs => rw [State.continueAt_reg, State.setEq_reg]
  case dmem => rw [State.continueAt_memRead, State.setEq_memRead]

end Sys2Proof.Machine
end

section
/-! PROOFS. JMP, JE, JNE and HALT (44_control_transfer R110-R114): a taken jump and its target check, a jump that is not
taken, and the normal halt. -/

namespace Sys2Proof.Machine

/-! ### Taken and not taken -/

/-- `i` is a jump to `target` that EQ lets be taken (R110-R112). -/
def JumpTaken (i : Instr) (target : Word) (s : State) : Prop :=
  i = .jmp target ∨ (i = .je target ∧ s.eq = true) ∨ (i = .jne target ∧ s.eq = false)

/-- `i` is a conditional jump to `target` that EQ does not let be taken (R111, R112). -/
def JumpNotTaken (i : Instr) (target : Word) (s : State) : Prop :=
  (i = .je target ∧ s.eq = false) ∨ (i = .jne target ∧ s.eq = true)

theorem exec_of_jumpTaken {i : Instr} {target : Word} {s : State} (h : JumpTaken i target s) :
    exec i s = .next (s.takeJump target (encode i)) := by
  rcases h with rfl | ⟨rfl, heq⟩ | ⟨rfl, heq⟩
  · rfl
  · exact congrArg Host.Outcome.next (if_pos heq)
  · exact congrArg Host.Outcome.next (if_neg (Bool.eq_false_iff.mp heq))

theorem exec_of_jumpNotTaken {i : Instr} {target : Word} {s : State} (h : JumpNotTaken i target s) :
    exec i s = .next (s.continueAt s.pcNext) := by
  rcases h with ⟨rfl, heq⟩ | ⟨rfl, heq⟩
  · exact congrArg Host.Outcome.next (if_neg (Bool.eq_false_iff.mp heq))
  · exact congrArg Host.Outcome.next (if_pos heq)

/-! ### What a jump leaves -/

/-- An instruction that is only a commit changes the PC and nothing else. -/
theorem leaves_of_exec_continueAt {i : Instr} {s : State} {n : Word} (h : exec i s = .next (s.continueAt n)) :
    ∃ t, exec i s = .next t ∧ t.pc = n ∧ SameRegs s t ∧ t.eq = s.eq ∧ SameDmem s t ∧ Continued s t :=
  ⟨_, h, s.continueAt_pc n, s.continueAt_reg n, s.continueAt_eq n, s.continueAt_memRead n,
    State.continueAt_continued (.refl s) n⟩

/-- A taken jump goes to a non-negative target. -/
theorem leaves_of_jumpTaken {i : Instr} {target : Word} {s : State} (h : JumpTaken i target s)
    (hnonneg : 0 ≤ sint target) :
    ∃ t, exec i s = .next t ∧ t.pc = target ∧ SameRegs s t ∧ t.eq = s.eq ∧ SameDmem s t ∧ Continued s t :=
  leaves_of_exec_continueAt ((exec_of_jumpTaken h).trans (by rw [s.takeJump_of_nonneg hnonneg]))

/-- A taken jump to a negative target is a halt entry with the jump's own word (R114). -/
theorem haltedFrom_of_jumpTaken {i : Instr} {target : Word} {s : State} (h : JumpTaken i target s)
    (hneg : sint target < 0) :
    ∃ t, exec i s = .next t ∧ HaltedFrom (.runtimeError .invalidJumpTarget) (encode i) s t :=
  ⟨_, (exec_of_jumpTaken h).trans (by rw [s.takeJump_of_neg hneg]), s.raise_haltedFrom _ _⟩

/-- A jump that is not taken goes on in order, whatever its target. -/
theorem leaves_of_jumpNotTaken {i : Instr} {target : Word} {s : State} (h : JumpNotTaken i target s) :
    ∃ t, exec i s = .next t ∧ t.pc = s.pc + 1 ∧ SameRegs s t ∧ t.eq = s.eq ∧ SameDmem s t ∧ Continued s t :=
  leaves_of_exec_continueAt (exec_of_jumpNotTaken h)

/-- A machine that steps and continues steps again: neither `rst` nor STATUS has changed. -/
theorem Stepping.of_continued {s t : State} (hs : Stepping s) (h : Continued s t) : Stepping t where
  released := h.control.rst.trans hs.released
  running := (congrArg (·.getLsbD 0) h.control.status).trans hs.running

/-- Settles O33: the target check is in the taken jump alone. A taken jump continues with the PC at its target, and a
PC at or beyond N ends the run at the next fetch (`fetchPastTheEndEndsTheProgram`). -/
theorem targetIsCheckedOnlyWhenTaken : Obligations.TargetIsCheckedOnlyWhenTaken := by
  unfold Obligations.TargetIsCheckedOnlyWhenTaken
  refine ⟨fun i target s hjump => ⟨haltedFrom_of_jumpTaken hjump, fun hnonneg => ?taken⟩,
    fun i target s hjump => ?notTaken⟩
  case taken =>
    obtain ⟨t, hexec, hpc, -, -, -, hcont⟩ := leaves_of_jumpTaken hjump hnonneg
    refine ⟨t, hexec, hpc, hcont.control.status, fun hs hend => ?_⟩
    have hpast : uint t.progLen ≤ uint t.pc := by rwa [hcont.control.progLen, hpc]
    exact fetchPastTheEndEndsTheProgram t (hs.of_continued hcont) hpast
  case notTaken =>
    obtain ⟨t, hexec, hpc, -, -, -, hcont⟩ := leaves_of_jumpNotTaken hjump
    exact ⟨t, hexec, hpc, hcont.control.status⟩

/-! ### The four instructions -/

/-- Settles O28: JMP is always taken, and a non-negative target reads the same signed and unsigned. -/
theorem jmpGoesToTheTarget : Obligations.JmpGoesToTheTarget := by
  unfold Obligations.JmpGoesToTheTarget
  intro target s
  have htaken : JumpTaken (.jmp target) target s := .inl rfl
  refine ⟨fun hnonneg => ?_, haltedFrom_of_jumpTaken htaken⟩
  obtain ⟨t, hexec, hpc, hframe⟩ := leaves_of_jumpTaken htaken hnonneg
  exact ⟨t, hexec, hpc, hpc ▸ (uint_of_sint_nonneg hnonneg).1, hframe⟩

/-- Settles O29: JE is taken where EQ is set and not taken where it is clear. -/
theorem jeJumpsWhenEqIsSet : Obligations.JeJumpsWhenEqIsSet := by
  unfold Obligations.JeJumpsWhenEqIsSet
  intro target s
  have htaken (heq : s.eq = true) : JumpTaken (.je target) target s := .inr (.inl ⟨rfl, heq⟩)
  have hnot (heq : s.eq = false) : JumpNotTaken (.je target) target s := .inl ⟨rfl, heq⟩
  exact ⟨fun heq => leaves_of_jumpTaken (htaken heq), fun heq => haltedFrom_of_jumpTaken (htaken heq),
    fun heq => leaves_of_jumpNotTaken (hnot heq)⟩

/-- Settles O30: JNE is taken where EQ is clear and not taken where it is set. -/
theorem jneJumpsWhenEqIsClear : Obligations.JneJumpsWhenEqIsClear := by
  unfold Obligations.JneJumpsWhenEqIsClear
  intro target s
  have htaken (heq : s.eq = false) : JumpTaken (.jne target) target s := .inr (.inr ⟨rfl, heq⟩)
  have hnot (heq : s.eq = true) : JumpNotTaken (.jne target) target s := .inr ⟨rfl, heq⟩
  exact ⟨fun heq => leaves_of_jumpTaken (htaken heq), fun heq => haltedFrom_of_jumpTaken (htaken heq),
    fun heq => leaves_of_jumpNotTaken (hnot heq)⟩

/-- Settles O31: HALT is a halt entry in every state, which sets STATUS; the ports show the fields of STATUS and the
strobe. -/
theorem haltStopsTheRunNormally : Obligations.HaltStopsTheRunNormally := by
  unfold Obligations.HaltStopsTheRunNormally
  intro s
  have hhalt := s.stopNormal_haltedFrom
  exact ⟨s.stopNormal, rfl, hhalt, hhalt.status, hhalt.halted, hhalt.cause, hhalt.noStrobe⟩

end Sys2Proof.Machine
end

section
/-! PROOFS. Errors and halts (60_exceptions R115-R119): the ways an instruction and a step end, which instruction raises
which error, and what an error's record shows of it. -/

namespace Sys2Proof

/-! ### The opcodes of the decode errors -/

theorem Opcode.code_range (o : Opcode) : 1 ≤ o.code.toNat ∧ o.code.toNat ≤ 12 := by
  cases o <;> decide

/-- Only the formats with a register field, ops 1 to 8, can name an unknown register. -/
theorem Opcode.code_le_of_unknownRegister {o : Opcode} {w : InsnWord} (h : usedRegistersKnown o w = false) :
    o.code.toNat ≤ 8 := by
  cases o with
  | jmp | je | jne | halt => cases h
  | load | loadm | store | add | sub | mul | div | cmp => decide

end Sys2Proof

namespace Sys2Proof.Machine

/-! ### How an instruction ends -/

/-- The errors of the instructions at execute (R116), each with the operand that is at fault. -/
inductive Raises (s : State) : Instr → ErrorKind → Prop where
  | loadm (rd : Reg) (addr : Word) (h : sint addr < 0 ∨ 255 < sint addr) :
      Raises s (.loadm rd addr) .invalidMemoryAddress
  | store (rs : Reg) (addr : Word) (h : sint addr < 0 ∨ 255 < sint addr) :
      Raises s (.store rs addr) .invalidMemoryAddress
  | div (rd rs : Reg) (h : s.reg rs = 0) : Raises s (.div rd rs) .divisionByZero
  | jump {i : Instr} (target : Word) (hi : JumpTaken i target s) (h : sint target < 0) :
      Raises s i .invalidJumpTarget

/-- The ways an instruction ends: it continues, it is HALT, or it raises one of its errors with its own word. -/
inductive InstrEnds (s : State) (i : Instr) : State → Prop where
  | continued {t : State} (hi : i ≠ .halt) (h : Continued s t) : InstrEnds s i t
  | stopNormal (hi : i = .halt) : InstrEnds s i s.stopNormal
  | raise (k : ErrorKind) (h : Raises s i k) : InstrEnds s i (s.raise k (encode i))

theorem ExecutesTo.instrEnds {s t : State} {i : Instr} (h : ExecutesTo s i t) : InstrEnds s i t := by
  cases h with
  | load | loadm | add | sub | mul | div =>
    exact .continued nofun (State.continueAt_continued (s.setReg_sameControl _ _) _)
  | store => exact .continued nofun (State.continueAt_continued (s.memWrite_sameControl _ _) _)
  | cmp => exact .continued nofun (State.continueAt_continued (s.setEq_sameControl _) _)
  | jmp | jeTaken | jeNotTaken | jneTaken | jneNotTaken =>
    exact .continued nofun (State.continueAt_continued (.refl s) _)
  | loadmOutside rd addr hout => exact .raise _ (.loadm rd addr hout)
  | storeOutside rs addr hout => exact .raise _ (.store rs addr hout)
  | divByZero rd rs hz => exact .raise _ (.div rd rs (BitVec.toInt_inj.mp hz))
  | jmpNegative target hneg => exact .raise _ (.jump target (.inl rfl) hneg)
  | jeNegative target heq hneg => exact .raise _ (.jump target (.inr (.inl ⟨rfl, heq⟩)) hneg)
  | jneNegative target heq hneg => exact .raise _ (.jump target (.inr (.inr ⟨rfl, heq⟩)) hneg)
  | halt => exact .stopNormal rfl

theorem Continued.halted {s t : State} (h : Continued s t) : t.halted = s.halted :=
  congrArg (·.getLsbD 0) h.control.status

/-! ### The errors of each instruction (R116) -/

/-- Settles O38: at decode over the decoder's answers (`DecodesTo`), at execute over the ways an instruction ends. -/
theorem eachInstructionRaisesOnlyItsErrors : Obligations.EachInstructionRaisesOnlyItsErrors := by
  unfold Obligations.EachInstructionRaisesOnlyItsErrors
  constructor
  · intro w e hd
    cases decode_eq_iff.mp hd with
    | unknownOpcode hn => exact (Opcode.ofCode_eq_none _).mp hn
    | malformedOperands o hc => exact hc ▸ o.code_range
    | unknownRegister o hc _ hr => exact hc ▸ ⟨o.code_range.1, o.code_le_of_unknownRegister hr⟩
  · intro i s t hs hexec ht
    cases (exec_cases hexec).instrEnds with
    | continued _ h => exact absurd (ht.symm.trans (h.halted.trans hs)) (by decide)
    | stopNormal hi => exact .inr (.inr (.inr ⟨hi, s.haltEntry_cause _ _⟩))
    | raise k h =>
      have hcause := s.haltEntry_cause (.runtimeError k) (encode i)
      cases h with
      | loadm rd addr => exact .inl ⟨rd, addr, .inl rfl, hcause⟩
      | store rs addr => exact .inl ⟨rs, addr, .inr rfl, hcause⟩
      | div rd rs => exact .inr (.inl ⟨rd, rs, rfl, hcause⟩)
      | jump target hi =>
        exact .inr (.inr (.inl ⟨target, hi.imp_right (.imp And.left And.left), hcause⟩))

/-! ### How a step ends (R89) -/

/-- The word shows the error: it does not decode, or its fields hold the address or the target that is out of range, or
name the register that holds the zero divisor (R117). -/
def ShowsFault (s : State) (w : InsnWord) : ErrorKind → Prop
  | .unknownOpcode => decode w = .error .unknownOpcode
  | .malformedOperands => decode w = .error .malformedOperands
  | .unknownRegister => decode w = .error .unknownRegister
  | .invalidMemoryAddress => sint (fieldImm w) < 0 ∨ 255 < sint (fieldImm w)
  | .divisionByZero => ∃ r : Reg, r.number = fieldRb w ∧ s.reg r = 0
  | .invalidJumpTarget => sint (fieldImm w) < 0

theorem showsFault_of_decode_error {w : InsnWord} {e : DecodeError} (h : decode w = .error e) (s : State) :
    ShowsFault s w (decodeErrorKind e) := by
  cases e <;> exact h

theorem JumpTaken.fieldImm_encode {i : Instr} {target : Word} {s : State} (h : JumpTaken i target s) :
    fieldImm (encode i) = target := by
  rcases h with rfl | ⟨rfl, -⟩ | ⟨rfl, -⟩ <;> exact fieldImm_packWord ..

/-- The word of an instruction holds the operand that is at fault. -/
theorem Raises.showsFault {s : State} {i : Instr} {k : ErrorKind} (h : Raises s i k) : ShowsFault s (encode i) k := by
  cases h with
  | loadm rd addr hout | store rd addr hout => simpa [ShowsFault, encode, encodeRI] using hout
  | div rd rs hz => exact ⟨rs, (fieldRb_packWord ..).symm, hz⟩
  | jump target hi hneg => simpa only [ShowsFault, hi.fieldImm_encode] using hneg

/-- The four ways a step ends. -/
inductive StepEnds (s : State) : State → Prop where
  | continued {t : State} (h : Continued s t) (hp : uint s.pc < uint s.progLen) (w : InsnWord)
      (hw : s.ifetch (uint s.pc) = some w) (i : Instr) (hd : decode w = .insn i) (hi : i ≠ .halt) : StepEnds s t
  | stopNormal (hp : uint s.pc < uint s.progLen) (w : InsnWord) (hw : s.ifetch (uint s.pc) = some w)
      (hd : decode w = .insn .halt) : StepEnds s s.stopNormal
  | endOfProgram (hp : uint s.progLen ≤ uint s.pc) : StepEnds s s.stopEndOfProgram
  | raise (k : ErrorKind) (w : InsnWord) (hp : uint s.pc < uint s.progLen) (hw : s.ifetch (uint s.pc) = some w)
      (hf : ShowsFault s w k) : StepEnds s (s.raise k w)

/-- The instruction's own word, with which it raises its errors, is the word fetched (`decodedWordIsItsOwnEncoding`). -/
theorem InstrEnds.stepEnds {s t : State} {i : Instr} (h : InstrEnds s i t) (hp : uint s.pc < uint s.progLen)
    {w : InsnWord} (hw : s.ifetch (uint s.pc) = some w) (hd : decode w = .insn i) : StepEnds s t := by
  cases h with
  | continued hi hc => exact .continued hc hp w hw i hd hi
  | stopNormal hi => exact .stopNormal hp w hw (hi ▸ hd)
  | raise k hk =>
    obtain rfl : encode i = w := decodedWordIsItsOwnEncoding w i hd
    exact .raise k _ hp hw hk.showsFault

theorem step_stepEnds {s t : State} (hs : Stepping s) (h : step s = .next t) : StepEnds s t := by
  cases step_cases h with
  | resetEdge hr => exact absurd (hr.symm.trans hs.released) (by decide)
  | halted _ hh => exact absurd (hh.symm.trans hs.running) (by decide)
  | endOfProgram _ hp => exact .endOfProgram hp
  | decodeError _ hp w hw e hd => exact .raise _ w hp hw (showsFault_of_decode_error hd s)
  | executed _ hp w hw i hd _ hx => exact hx.instrEnds.stepEnds hp hw hd

/-- Settles O42, over the four ways: the first leaves STATUS, the others are halt entries. -/
theorem stepEndsInOneOfFourWays : Obligations.StepEndsInOneOfFourWays := by
  unfold Obligations.StepEndsInOneOfFourWays
  intro s t hs h
  cases step_stepEnds hs h with
  | continued hc hp w hw i hd hi => exact .inl ⟨hc.halted.trans hs.running, hc, hp, w, i, hw, hd, hi⟩
  | stopNormal hp w hw hd => exact .inr (.inl ⟨s.stopNormal_haltedFrom, hp, w, hw, hd⟩)
  | endOfProgram hp => exact .inr (.inr (.inl ⟨s.stopEndOfProgram_haltedFrom, hp⟩))
  | raise k w hp hw => exact .inr (.inr (.inr ⟨k, w, s.raise_haltedFrom k w, hp, hw⟩))

/-- A step whose cause is an error's has raised that error, since the causes' codes differ. -/
theorem raised_of_step {s t : State} {k : ErrorKind} (hs : Stepping s) (h : step s = .next t) (ht : t.halted = true)
    (hc : t.cause = causeCode (.runtimeError k)) :
    ∃ w, t = s.raise k w ∧ s.ifetch (uint s.pc) = some w ∧ ShowsFault s w k := by
  have inj {c : Cause} {w : InsnWord} (hc : (s.haltEntry c w).cause = causeCode (.runtimeError k)) :
      c = .runtimeError k := causeCode_inj ((s.haltEntry_cause c w).symm.trans hc)
  cases step_stepEnds hs h with
  | continued hcont => exact absurd (ht.symm.trans (hcont.halted.trans hs.running)) (by decide)
  | stopNormal | endOfProgram => exact absurd (inj hc) nofun
  | raise j w _ hw hf =>
    cases inj hc
    exact ⟨w, rfl, hw, hf⟩

/-- Settles O43: the error raised leaves the PC and records the word fetched, which shows the fault. -/
theorem errorRecordLocatesTheFault : Obligations.ErrorRecordLocatesTheFault := by
  unfold Obligations.ErrorRecordLocatesTheFault
  intro s t k hs h ht hc
  obtain ⟨w, rfl, hw, hf⟩ := raised_of_step hs h ht hc
  refine ⟨rfl, hw, ?_, ?_, ?_⟩ <;> (rintro rfl; exact hf)

end Sys2Proof.Machine
end

section
/-! PROOFS. Reset, boot and hazards (70_reset_and_hazards): the reset values, the boot of a program and its refusals, a
loaded machine that always goes on, and the end of a run. -/

namespace Sys2Proof.Machine

/-! ### The reset state -/

theorem reset_reg (r : Reg) : State.reset.reg r = 0 := by
  cases r <;> rfl

theorem reset_stepping : Stepping State.reset := ⟨rfl, rfl⟩

/-- Settles O54: the registers are `reset_reg`, the rest is the definition of the reset state. -/
theorem resetStateHoldsTheResetValues : Obligations.ResetStateHoldsTheResetValues := by
  unfold Obligations.ResetStateHoldsTheResetValues
  exact ⟨reset_reg, rfl, rfl, rfl, fun _ => rfl, Memory.wf_nil, rfl, rfl, rfl, rfl, rfl, reset_stepping⟩

/-! ### The words of a program in the store -/

/-- The store after words have been written to consecutive indices from `i`, as `hostLoadWords` writes them. -/
def putWords : Nat → List InsnWord → ProgramStore → ProgramStore
  | _, [], m => m
  | i, w :: ws, m => putWords (i + 1) ws (putCell i w m)

/-- Indices below the first one written keep their word. -/
theorem cellAt_putWords_of_lt {i j : Nat} (h : j < i) (ws : List InsnWord) (m : ProgramStore) :
    cellAt j (putWords i ws m) = cellAt j m := by
  induction ws generalizing i m with
  | nil => rfl
  | cons w ws ih => rw [putWords, ih (Nat.lt_succ_of_lt h), cellAt_putCell, if_neg (Nat.ne_of_lt h)]

/-- The word `k` places after the first index written is the program's word `k`. -/
theorem cellAt_putWords (i : Nat) {k : Nat} {ws : List InsnWord} (h : k < ws.length) (m : ProgramStore) :
    cellAt (i + k) (putWords i ws m) = ws[k]? := by
  induction ws generalizing i k m with
  | nil => exact absurd h (Nat.not_lt_zero k)
  | cons w ws ih =>
    cases k with
    | zero => rw [putWords, Nat.add_zero, cellAt_putWords_of_lt (Nat.lt_succ_self i), cellAt_putCell, if_pos rfl]; rfl
    | succ k => rw [putWords, ← Nat.succ_add_eq_add_succ, ih (i + 1) (Nat.lt_of_succ_lt_succ h)]; rfl

theorem rising_putWords (i : Nat) (ws : List InsnWord) {m : ProgramStore} (hm : rising m = true) :
    rising (putWords i ws m) = true := by
  induction ws generalizing i m with
  | nil => exact hm
  | cons w ws ih => exact ih (i + 1) (rising_putCell i w hm)

/-- Words written below a bound leave a store that lies below it. -/
theorem putWords_in_store {n i : Nat} {ws : List InsnWord} {m : ProgramStore} (hn : i + ws.length ≤ n)
    (hm : ∀ x ∈ m, x.1 < n) : ∀ x ∈ putWords i ws m, x.1 < n := by
  induction ws generalizing i m with
  | nil => exact hm
  | cons w ws ih =>
    rw [List.length_cons] at hn
    refine ih (by omega) fun x hx => ?_
    rcases mem_putCell hx with rfl | hx
    · exact (Nat.le_add_right i ws.length).trans_lt (by omega)
    · exact hm x hx

/-! ### Loading and booting -/

theorem andThen_of_next {o : Host.Outcome State Fault Refusal} {s : State} (h : o = .next s)
    (f : State → Host.Outcome State Fault Refusal) : andThen o f = f s :=
  congrArg (andThen · f) h

theorem andThen_of_refused {o : Host.Outcome State Fault Refusal} {r : Refusal} (h : o = .refused r)
    (f : State → Host.Outcome State Fault Refusal) : andThen o f = .refused r :=
  congrArg (andThen · f) h

/-- Under reset the words of a program that ends within the store are written. -/
theorem hostLoadWords_of_fits {i : Nat} {ws : List InsnWord} {s : State} (hr : s.rst = true)
    (hn : i + ws.length ≤ Config.imemDepth) :
    hostLoadWords i ws s = .next { s with imem := putWords i ws s.imem } := by
  induction ws generalizing i s with
  | nil => rfl
  | cons w ws ih =>
    rw [List.length_cons] at hn
    exact (andThen_of_next (hostLoadWord_of_high hr (by omega) w) _).trans (ih hr (by omega))

/-- Under reset the words of a program that ends beyond the store are refused, at the first index beyond it. -/
theorem hostLoadWords_of_too_long {i : Nat} {ws : List InsnWord} {s : State} (hr : s.rst = true)
    (hi : i ≤ Config.imemDepth) (hn : Config.imemDepth < i + ws.length) :
    hostLoadWords i ws s = .refused .imemIndexBeyondStore := by
  induction ws generalizing i s with
  | nil => exact absurd hi (Nat.not_le.mpr hn)
  | cons w ws ih =>
    rw [List.length_cons] at hn
    rcases Nat.lt_or_ge i Config.imemDepth with hlt | hge
    · exact (andThen_of_next (hostLoadWord_of_high hr hlt w) _).trans (ih hr hlt (by omega))
    · exact andThen_of_refused (hostLoadWord_of_beyond hr hge w) _

/-- The machine that the boot of `ws` leaves: the reset state with the words written over the store, and N their
number. -/
def State.booted (s : State) (ws : List InsnWord) : State :=
  { State.reset with
    imem := putWords 0 ws s.imem
    progLen := BitVec.ofNat 32 ws.length
    progLenPin := BitVec.ofNat 32 ws.length }

/-- The length of a program that fits the store is a word's value. -/
theorem uint_length_of_fits {ws : List InsnWord} (h : programFits ws) : uint (BitVec.ofNat 32 ws.length) = ws.length :=
  Nat.mod_eq_of_lt (Nat.lt_trans (Nat.lt_of_le_of_lt h imemDepth_lt) (by decide))

theorem hostBoot_of_fits {ws : List InsnWord} (h : programFits ws) (s : State) :
    hostBoot ws s = .next (s.booted ws) := by
  have hload := hostLoadWords_of_fits (i := 0) (s := s.assertReset) rfl ((Nat.zero_add _).trans_le h)
  refine (andThen_of_next hload _).trans ((andThen_of_next (hostDriveProgLen_of_high rfl _) _).trans ?_)
  exact hostReleaseReset_of_high rfl ((uint_length_of_fits h).trans_le h)

theorem hostBoot_of_too_long {ws : List InsnWord} (h : ¬programFits ws) (s : State) :
    hostBoot ws s = .refused .imemIndexBeyondStore := by
  have hload := hostLoadWords_of_too_long (s := s.assertReset) rfl (Nat.zero_le _)
    (Nat.zero_add ws.length ▸ Nat.lt_of_not_le h)
  exact andThen_of_refused hload _

theorem State.booted_ifetch (s : State) {ws : List InsnWord} {i : Nat} (h : i < ws.length) :
    (s.booted ws).ifetch i = ws[i]? := by
  have hcell := cellAt_putWords 0 h s.imem
  rw [Nat.zero_add] at hcell
  exact hcell

theorem State.booted_stepping (s : State) (ws : List InsnWord) : Stepping (s.booted ws) :=
  ⟨rfl, reset_stepping.running⟩

theorem State.booted_loaded (s : State) {ws : List InsnWord} (h : programFits ws) : Loaded (s.booted ws) := by
  intro i hi
  have hlt : i < ws.length := uint_length_of_fits h ▸ hi
  exact ⟨ws[i], (s.booted_ifetch hlt).trans (List.getElem?_eq_getElem hlt)⟩

/-- A boot keeps what the invariant says of the store, and the rest of the machine is as at reset. -/
theorem Inv.booted {s : State} (hi : Inv s) {ws : List InsnWord} (h : programFits ws) : Inv (s.booted ws) :=
  { inv_reset with
    imemRising := rising_putWords 0 ws hi.imemRising
    imemInStore := putWords_in_store ((Nat.zero_add _).trans_le h) hi.imemInStore
    progFits := (uint_length_of_fits h).trans_le h }

/-- Settles O55: the boot answers `State.booted` (`hostBoot_of_fits`). -/
theorem bootLoadsTheProgram : Obligations.BootLoadsTheProgram := by
  unfold Obligations.BootLoadsTheProgram
  intro ws s h
  exact ⟨_, hostBoot_of_fits h s, uint_length_of_fits h, fun _ => s.booted_ifetch, s.booted_loaded h, rfl,
    fun hi => hi.booted h⟩

/-- Settles O56, by the law of each refusal; the boot's is `hostBoot_of_too_long`. -/
theorem brokenHostDutiesAreRefused : Obligations.BrokenHostDutiesAreRefused := by
  unfold Obligations.BrokenHostDutiesAreRefused
  exact ⟨fun s i w n hr => ⟨hostLoadWord_of_low hr i w, hostDriveProgLen_of_low hr n⟩,
    fun s => hostReleaseReset_of_beyond, fun ws s h => hostBoot_of_too_long h s⟩

/-- Settles O57: the booted machine holds the reset values and N = 0, so its first step is a halt entry, which writes
none of them (`fetchPastTheEndEndsTheProgram`). -/
theorem emptyProgramEndsAtItsFirstStep : Obligations.EmptyProgramEndsAtItsFirstStep := by
  unfold Obligations.EmptyProgramEndsAtItsFirstStep
  intro s
  obtain ⟨u, hstep, hu⟩ := fetchPastTheEndEndsTheProgram (s.booted []) (s.booted_stepping []) (Nat.zero_le _)
  exact ⟨_, u, hostBoot_of_fits (Nat.zero_le _) s, hstep, hu, fun r => (hu.regs r).trans (reset_reg r), hu.pc, hu.eq,
    hu.dmem⟩

/-! ### A loaded machine goes on -/

/-- A transition answers a next state unless it fetches a word that is not loaded. -/
theorem exists_next_of_pc_loaded {s : State} (hl : uint s.pc < uint s.progLen → ∃ w, s.ifetch (uint s.pc) = some w) :
    ∃ t, step s = .next t := by
  cases hr : s.rst with
  | true => exact ⟨_, step_of_reset hr⟩
  | false =>
    cases hh : s.halted with
    | true => exact ⟨_, step_of_halted hr hh⟩
    | false =>
      have hs : Stepping s := ⟨hr, hh⟩
      rcases Nat.lt_or_ge (uint s.pc) (uint s.progLen) with hp | hp
      · obtain ⟨w, hw⟩ := hl hp
        cases hd : decode w with
        | error e => exact (decodeErrorHaltsTheStep s w e hs hp hw hd).imp fun _ => And.left
        | insn i =>
          obtain ⟨t, ht, -⟩ := exec_executesTo i s
          exact ⟨t, (stepRunsTheDecodedInstruction s w i hs hp hw hd).trans ht⟩
      · exact (fetchPastTheEndEndsTheProgram s hs hp).imp fun _ => And.left

theorem SameProgram.loaded {s t : State} (h : SameProgram s t) (hl : Loaded s) : Loaded t := by
  intro i hi
  obtain ⟨w, hw⟩ := hl i (h.progLen ▸ hi)
  exact ⟨w, (congrArg (cellAt i) h.imem).trans hw⟩

/-- Settles O46: `exists_next_of_pc_loaded`, and no transition writes the program (`step_sameProgram`). -/
theorem loadedMachineNeverStops : Obligations.LoadedMachineNeverStops := by
  unfold Obligations.LoadedMachineNeverStops
  intro s hl
  obtain ⟨t, ht⟩ := exists_next_of_pc_loaded (hl _)
  exact ⟨t, ht, (step_sameProgram ht).loaded hl⟩

/-! ### The end of a run -/

theorem run_add (m k : Nat) (s : State) :
    Host.Core.run core (m + k) s = andThen (Host.Core.run core m s) (Host.Core.run core k) := by
  induction m generalizing s with
  | zero => rw [Nat.zero_add]; rfl
  | succ m ih =>
    rw [Nat.succ_add, run_succ, run_succ]
    cases step s with
    | next t => exact ih t
    | fault | refused => rfl

/-- No run changes the level of `rst`. -/
theorem rst_of_run {n : Nat} {s t : State} (h : Host.Core.run core n s = .next t) : t.rst = s.rst := by
  induction n generalizing s with
  | zero => cases h; rfl
  | succ n ih =>
    rw [run_succ] at h
    cases hs : step s with
    | next u => rw [hs] at h; exact (ih h).trans (step_sameProgram hs).rst
    | fault | refused => rw [hs] at h; cases h

theorem haltedStatus_inj {c d : Cause} (h : haltedStatus c = haltedStatus d) : c = d :=
  causeCode_inj (by rw [← haltedStatus_cause c, h, haltedStatus_cause d])

/-- More transitions leave a run that has ended where it is: its last state is halted (`run_of_halted`). -/
theorem endsIn_add {n : Nat} {s t : State} {c : Cause} (hr : s.rst = false) (h : endsIn n s t c) (k : Nat) :
    endsIn (n + k) s t c := by
  obtain ⟨hrun, hstatus⟩ := h
  have hlast := run_of_halted ((rst_of_run hrun).trans hr) (halted_of_status hstatus) k
  exact ⟨(run_add n k s).trans ((andThen_of_next hrun _).trans hlast), hstatus⟩

/-- Within one number of transitions a run ends in one state with one cause. -/
theorem endsIn_unique {n : Nat} {s t u : State} {c d : Cause} (ht : endsIn n s t c) (hu : endsIn n s u d) :
    u = t ∧ d = c := by
  obtain ⟨htrun, hc⟩ := ht
  obtain ⟨hurun, hd⟩ := hu
  cases htrun.symm.trans hurun
  exact ⟨rfl, haltedStatus_inj (hd.symm.trans hc)⟩

/-- Settles O52: two ends are compared after the sum of their transitions, where both still stand (`endsIn_add`). -/
theorem endOfRunIsFinal : Obligations.EndOfRunIsFinal := by
  unfold Obligations.EndOfRunIsFinal
  intro s t c n hr ht
  refine ⟨endsIn_add hr ht, fun m u d hu => ?_⟩
  exact endsIn_unique (endsIn_add hr ht m) (Nat.add_comm m n ▸ endsIn_add hr hu n)

end Sys2Proof.Machine
end

section
/-! PROOFS. Data memory as its reads (20_memory, log 1): a list of cells with rising keys is what it holds at every key,
and a memory in canonical form holds at every key what its reads say. -/

namespace Sys2Proof.Machine

/-! ### Cells with rising keys -/

section
variable {α : Type}

theorem risingFrom_cons {lo j : Nat} {v : α} {m : List (Nat × α)} :
    risingFrom lo ((j, v) :: m) = true ↔ lo ≤ j ∧ risingFrom (j + 1) m = true := by
  rw [risingFrom, Bool.and_eq_true, decide_eq_true_iff]

theorem cellAt_cons_self (k : Nat) (v : α) (m : List (Nat × α)) : cellAt k ((k, v) :: m) = some v := if_pos rfl

theorem cellAt_cons_of_ne {j k : Nat} (h : j ≠ k) (v : α) (m : List (Nat × α)) :
    cellAt k ((j, v) :: m) = cellAt k m := if_neg h

/-- The cell found at a key is listed. -/
theorem mem_of_cellAt {k : Nat} {v : α} {m : List (Nat × α)} (h : cellAt k m = some v) : (k, v) ∈ m := by
  induction m with
  | nil => cases h
  | cons c m ih =>
    obtain ⟨j, w⟩ := c
    by_cases hj : j = k
    · subst hj
      rw [cellAt_cons_self] at h
      cases h
      exact List.mem_cons_self
    · rw [cellAt_cons_of_ne hj] at h
      exact List.mem_cons_of_mem _ (ih h)

theorem cellAt_of_lt {lo k : Nat} (h : k < lo) {m : List (Nat × α)} (hm : risingFrom lo m = true) :
    cellAt k m = none := by
  induction m generalizing lo with
  | nil => rfl
  | cons c m ih =>
    obtain ⟨j, w⟩ := c
    obtain ⟨hj, hm⟩ := risingFrom_cons.mp hm
    rw [cellAt_cons_of_ne (by omega)]
    exact ih (by omega) hm

/-- The first key of a list is not below the first key of a list that holds the same: the latter would hold nothing at
it. -/
theorem head_le_of_cellAt_eq {i j : Nat} {v w : α} {m n : List (Nat × α)} (hn : risingFrom (j + 1) n = true)
    (h : cellAt i ((i, v) :: m) = cellAt i ((j, w) :: n)) : j ≤ i := by
  by_contra hij
  have hnone : cellAt i ((j, w) :: n) = none :=
    cellAt_of_lt (Nat.lt_of_not_le hij) (risingFrom_cons.mpr ⟨le_rfl, hn⟩)
  rw [cellAt_cons_self, hnone] at h
  cases h

/-- Two lists with rising keys that hold the same at every key are equal. -/
theorem eq_of_cellAt_eq {lo : Nat} {m n : List (Nat × α)} (hm : risingFrom lo m = true) (hn : risingFrom lo n = true)
    (h : ∀ k, cellAt k m = cellAt k n) : m = n := by
  induction m generalizing lo n with
  | nil =>
    cases n with
    | nil => rfl
    | cons d n => cases (h d.1).trans (cellAt_cons_self d.1 d.2 n)
  | cons c m ih =>
    obtain ⟨i, v⟩ := c
    cases n with
    | nil => cases (h i).symm.trans (cellAt_cons_self i v m)
    | cons d n =>
      obtain ⟨j, w⟩ := d
      obtain ⟨-, hm⟩ := risingFrom_cons.mp hm
      obtain ⟨-, hn⟩ := risingFrom_cons.mp hn
      obtain rfl : i = j := Nat.le_antisymm (head_le_of_cellAt_eq hm (h j).symm) (head_le_of_cellAt_eq hn (h i))
      have hword : some v = some w := by simpa only [cellAt_cons_self] using h i
      have htail : ∀ k, cellAt k m = cellAt k n := fun k => by
        by_cases hk : i = k
        · subst hk
          rw [cellAt_of_lt (Nat.lt_succ_self i) hm, cellAt_of_lt (Nat.lt_succ_self i) hn]
        · simpa only [cellAt_cons_of_ne hk] using h k
      rw [Option.some.inj hword, ih hm hn htail]

end

/-! ### The canonical form -/

/-- A memory in canonical form lists nothing beyond the 256 words. -/
theorem Memory.cellAt_of_beyond {m : Memory} (hm : m.wf = true) {k : Nat} (hk : Config.dmemWords ≤ k) :
    cellAt k m = none := by
  obtain ⟨-, hcells⟩ := m.wf_iff.mp hm
  refine Option.eq_none_iff_forall_ne_some.mpr fun v hv => ?_
  obtain ⟨hlt, -⟩ := hcells _ (mem_of_cellAt hv)
  exact absurd hlt (Nat.not_lt.mpr hk)

/-- A memory in canonical form lists an address exactly when it does not read there as an unlisted one. -/
theorem Memory.cellAt_eq_of_read {m : Memory} (hm : m.wf = true) (a : DmemAddr) :
    cellAt a.val m = if m.read a = unlistedWord then none else some (m.read a) := by
  obtain ⟨-, hcells⟩ := m.wf_iff.mp hm
  cases hv : cellAt a.val m with
  | none => simp [Memory.read, hv]
  | some v =>
    obtain ⟨-, hne⟩ := hcells _ (mem_of_cellAt hv)
    simpa [Memory.read, hv] using hne

/-- Settles O48: memories that read the same hold the same at every key, below 256 (`Memory.cellAt_eq_of_read`) and
beyond (`Memory.cellAt_of_beyond`), and their keys are rising (`eq_of_cellAt_eq`). -/
theorem equalReadsMakeEqualMemories : Obligations.EqualReadsMakeEqualMemories := by
  unfold Obligations.EqualReadsMakeEqualMemories
  intro m n hm hn h
  obtain ⟨hmRising, -⟩ := m.wf_iff.mp hm
  obtain ⟨hnRising, -⟩ := n.wf_iff.mp hn
  refine eq_of_cellAt_eq hmRising hnRising fun k => ?_
  rcases Nat.lt_or_ge k Config.dmemWords with hk | hk
  · have hread := h ⟨k, hk⟩
    rw [Memory.cellAt_eq_of_read hm ⟨k, hk⟩, Memory.cellAt_eq_of_read hn ⟨k, hk⟩, hread]
  · rw [Memory.cellAt_of_beyond hm hk, Memory.cellAt_of_beyond hn hk]

end Sys2Proof.Machine
end
